-- ==== Sys2Proof/Word.lean ====
section
/-! DEFINITION. The words of the core: a timestamp, a byte, and a word on one of its two operation ports. -/

namespace Sys2Proof

/-- A timestamp or a duration in microseconds, TS_W = 32 bits (00_scope.md R5; log entry 1). -/
abbrev Ts := BitVec 32

/-- A field register, the index IDX or the Compliance Counter: 8 bits (10_state.md R12, R18, R20). -/
abbrev Byte := BitVec 8

/-- What can stand on the core's two operation ports: a command code (format CMD, 30_encoding.md R69)
or an event word, bit 32 the strobe and bits 31:0 the timestamp (format EVT, R73). -/
inductive PortWord where
  | cmd (op : BitVec 3)
  | evt (bits : BitVec 33)
  deriving DecidableEq, Repr

end Sys2Proof
end

