-- ==== Sys2Proof/Config.lean ====
section
/-! DEFINITION. What is fixed when the hardware is built (00_scope.md R4, R5) and the free values. -/

namespace Sys2Proof

/-- An inclusive range of microseconds (00_scope.md R6). -/
structure Window where
  lo : Nat
  hi : Nat
  deriving DecidableEq, Repr

/-- CKPT_MODE of R5: one final checkpoint (43_protocol_validator.md R137) or two (R138). -/
inductive CkptMode where
  | merged
  | split
  deriving DecidableEq, Repr

/-- The open parameters of R5 that change what the core computes. -/
structure Params where
  /-- The constant added in the wrapped branch of the delta, M or M - 1 (42_duration_converter.md R120, R125). -/
  wrapK : Nat
  ckptMode : CkptMode
  deriving DecidableEq, Repr

namespace Config

/-! Widths and sizes (R4, R5). The types of State write the same numbers out; the theorems of Tests tie them. -/

/-- TS_W, decided 32 (92_eei_decisions.md D1). PRESUMED, log entry 1. -/
def tsW : Nat := 32
/-- CC_W, decided 8 (D4). -/
def ccW : Nat := 8
/-- LOG_SIZE. -/
abbrev logSize : Nat := 256
/-- N_EDGES, the only accepted value of IDX, as the 8-bit register holds it. -/
abbrev nEdges : Byte := 86

/-! Windows (R4; 43_protocol_validator.md R130). -/

def wS1L : Window := ⟨800, 20000⟩
def wS1H : Window := ⟨20, 200⟩
def wS2L : Window := ⟨75, 85⟩
def wS2H : Window := ⟨75, 85⟩
def wS3L : Window := ⟨48, 69⟩
def wS3H0 : Window := ⟨22, 30⟩
def wS3H1 : Window := ⟨68, 75⟩
def wS4L : Window := ⟨45, 55⟩

/-- The eight windows, for checks that run over all of them. -/
def windows : List Window := [wS1L, wS1H, wS2L, wS2H, wS3L, wS3H0, wS3H1, wS4L]

/-! Thresholds of the Compliance Counter and ranges of the results (R4, R5). -/

abbrev thInit : Nat := 4
abbrev thFinal : Nat := 45
/-- TH_DATA, used only when CKPT_MODE is SPLIT (R5). -/
abbrev thData : Nat := 44
abbrev humMax : Nat := 999
abbrev tempMin : Int := -400
abbrev tempMax : Int := 1250

/-- The parameters of this hardware: WRAP_K = M (D2) and CKPT_MODE = MERGED (D5). Log entries 2 and 3. -/
def decided : Params := ⟨2 ^ 32, .merged⟩

/-! Free values: constants with no body, so that nothing can be proved of what they are. -/

/-- FREE VALUE. What LOG entry `i` holds before any EDGE has written it since reset number `r`
(10_state.md R28, 93_implementation_defined.md U2). Log entry 6. -/
opaque unwrittenEntry (r i : Nat) : Ts

/-- FREE VALUE. Whether, at step number `n`, a coinciding edge is taken before the command
(60_exceptions.md R185, U14). Log entry 8. -/
opaque edgeFirst (n : Nat) : Bool

/-- FREE VALUE. `res_code` read after step `n` while RES is None (30_encoding.md R67, U5). Log entry 10. -/
opaque anyCode (n : Nat) : BitVec 3

/-- FREE VALUE. `res_hum` read after step `n` while RES is not Ok (R67, U4). Log entry 10. -/
opaque anyHum (n : Nat) : BitVec 16

/-- FREE VALUE. `res_temp` read after step `n` while RES is not Ok (R67, U4). Log entry 10. -/
opaque anyTemp (n : Nat) : BitVec 16

end Config

end Sys2Proof
end

