-- ==== Sys2Proof/Syntax.lean ====
section
/-! DEFINITION. The operations of the core, one constructor per row of spec/opcode_table.json. -/

namespace Sys2Proof

/-- The operations (30_encoding.md R72) and the three reserved command codes (R71). -/
inductive Instr where
  /-- One transition of the line, with the timestamp sampled from `now` (R73). -/
  | edge (t : Ts)
  | nop
  | clear
  | arm
  | disarm
  | decode
  | reserved5
  | reserved6
  | reserved7
  deriving DecidableEq, Repr

end Sys2Proof
end

