-- ==== Sys2Proof/WellFormed.lean ====
section
/-! DEFINITION. Well-formedness: of port words, of instructions, and of the parameters the spec leaves open. -/

namespace Sys2Proof

/-- A port word is well formed when an event word has its strobe bit set: `stb`, bit TS_W, is "always 1"
(30_encoding.md R73). Every command code is well formed: 5 to 7 are executed (R71). -/
def PortWord.wf : PortWord → Bool
  | .cmd _ => true
  | .evt bits => bits.getLsbD 32

/-- Every operand the two formats can carry is admitted: the timestamp of EDGE is any value of its width
(40_edge_recorder.md R91) and no command has an operand (30_encoding.md R69). -/
def Instr.wf : Instr → Bool
  | .edge _ | .nop | .clear | .arm | .disarm | .decode | .reserved5 | .reserved6 | .reserved7 => true

/-- A window is a range that is not empty and does not contain 0 (43_protocol_validator.md R140),
and its upper bound fits the least legal TS_W, 16 bits (00_scope.md R5). -/
def Window.wf (w : Window) : Bool :=
  decide (0 < w.lo) && decide (w.lo ≤ w.hi) && decide (w.hi < 2 ^ 15)

/-- The widths R5 allows: TS_W at least 16 and CC_W at least 6. -/
def Config.widthsWf (tsW ccW : Nat) : Bool := decide (16 ≤ tsW) && decide (6 ≤ ccW)

/-- WRAP_K is M or M - 1 for the width in use (R5). -/
def Params.wf (tsW : Nat) (p : Params) : Bool :=
  decide (p.wrapK = 2 ^ tsW) || decide (p.wrapK = 2 ^ tsW - 1)

end Sys2Proof
end

