-- ==== Sys2Proof/Decode.lean ====
section
/-! DEFINITION. Decoding of port words and of their byte images, rejecting by name, and the encoder. -/

namespace Sys2Proof

/-- Why a word is no operation. -/
inductive DecodeReject where
  /-- An event word whose strobe bit is 0: no event (30_encoding.md R73). -/
  | strobeClear
  /-- An empty byte image. -/
  | noBytes
  /-- A number with no strobe bit and a bit above the three of a command (R69). -/
  | noFormat
  /-- A number with a bit above the 33 of an event word (R73). -/
  | tooWide
  deriving DecidableEq, Repr

/-- The command codes (30_encoding.md R70, R71), by the bits 2, 1, 0 of `op`. -/
def decodeCmd (op : BitVec 3) : Instr :=
  match op.getLsbD 2, op.getLsbD 1, op.getLsbD 0 with
  | false, false, false => .nop
  | false, false, true  => .clear
  | false, true,  false => .arm
  | false, true,  true  => .disarm
  | true,  false, false => .decode
  | true,  false, true  => .reserved5
  | true,  true,  false => .reserved6
  | true,  true,  true  => .reserved7

/-- The decoder of the two formats CMD and EVT (R69, R73). -/
def decode : PortWord → Except DecodeReject Instr
  | .cmd op => .ok (decodeCmd op)
  | .evt bits => if bits.getLsbD 32 then .ok (.edge (bits.setWidth 32)) else .error .strobeClear

/-- A number as spec/opcode_table.json numbers a row's bits: below 8 a command code, with bit 32 and no
higher bit an event word, anything else no format. Log entry 11. -/
def portWordOfNumber (n : Nat) : Except DecodeReject PortWord :=
  if n < 8 then .ok (.cmd (BitVec.ofNat 3 n))
  else if n < 2 ^ 32 then .error .noFormat
  else if n < 2 ^ 33 then .ok (.evt (BitVec.ofNat 33 n))
  else .error .tooWide

/-- The number of a byte image, first byte least significant. DESIGN CHOICE, log entry 11. -/
def numberOfBytes : List Byte → Nat
  | [] => 0
  | b :: bs => b.toNat + 256 * numberOfBytes bs

/-- The decoder on any bytes. -/
def decodeBytes (bs : List Byte) : Except DecodeReject Instr :=
  match bs with
  | [] => .error .noBytes
  | b :: rest =>
    match portWordOfNumber (numberOfBytes (b :: rest)) with
    | .ok w => decode w
    | .error r => .error r

/-- The encoder, from the tables of R70 and R73. -/
def encode : Instr → PortWord
  | .edge t => .evt (1#1 ++ t)
  | .nop => .cmd 0b000#3
  | .clear => .cmd 0b001#3
  | .arm => .cmd 0b010#3
  | .disarm => .cmd 0b011#3
  | .decode => .cmd 0b100#3
  | .reserved5 => .cmd 0b101#3
  | .reserved6 => .cmd 0b110#3
  | .reserved7 => .cmd 0b111#3

/-- The byte image of a port word: one byte for a command, five for an event word. Log entry 11. -/
def bytesOfPortWord : PortWord → List Byte
  | .cmd op => [op.setWidth 8]
  | .evt bits => [bits.extractLsb' 0 8, bits.extractLsb' 8 8, bits.extractLsb' 16 8, bits.extractLsb' 24 8,
      bits.extractLsb' 32 8]

/-- The byte image of an instruction. -/
def encodeBytes (i : Instr) : List Byte := bytesOfPortWord (encode i)

/-- `k` bytes of the number `n`, first byte least significant. -/
def bytesOfNumber : Nat → Nat → List Byte
  | 0, _ => []
  | k + 1, n => BitVec.ofNat 8 n :: bytesOfNumber k (n / 256)

/-- The byte image of a row of spec/opcode_table.json whose bits are `w`: the bits above `nbits` are 0, up to the
longest instruction (five bytes). -/
def tableBytes (nbits w : Nat) : List Byte := bytesOfNumber (max 5 ((nbits + 7) / 8)) (w % 2 ^ nbits)

/-- The instruction the decoder reads from a row's bits. -/
def decodeTableWord (nbits w : Nat) : Option Instr :=
  match decodeBytes (tableBytes nbits w) with
  | .ok i => some i
  | .error _ => none

end Sys2Proof
end

