-- ==== Sys2Proof/Machine/State.lean ====
section
/-! DEFINITION. The state of the core as plain data, its single updates, the reasons to stop, and reset. -/

namespace Sys2Proof.Machine

/-- One of the core's memories: (entry index, entry) pairs, indices strictly rising, only entries that have been
written since reset (20_memory.md R40). Log entries 6 and 12. -/
abbrev Memory := List (Nat × Ts)

/-- The failure codes of DECODE (30_encoding.md R66, 60_exceptions.md R180). Code 7 does not exist (R68). -/
inductive FailCode where
  | edgeCountMismatch
  | initialSignalInvalid
  | dataOrTerminalInvalid
  /-- Code 4, raised only when CKPT_MODE is SPLIT (43_protocol_validator.md R138). -/
  | terminalInvalid
  | parityError
  | rangeError
  deriving DecidableEq, Repr

/-- RES (10_state.md R14): the values of Ok are i16, as the ports carry them (30_encoding.md R67). -/
inductive Res where
  | none
  | err (code : FailCode)
  | ok (hum temp : BitVec 16)
  deriving DecidableEq, Repr

/-- The input ports at one moment (10_state.md R24): an edge and a command may coincide (60_exceptions.md R185). -/
structure PortSample where
  rst : Bool
  edgeStb : Bool
  now : Ts
  cmdStb : Bool
  cmd : BitVec 3
  deriving DecidableEq, Repr

/-- The state of the core (10_state.md R10), its coming inputs, and the two counters of the model's own. -/
structure State where
  /-- LOG, the Edge Timestamp Log (R11). -/
  log : Memory
  /-- IDX (R12). -/
  idx : Byte
  /-- EN (R13). -/
  en : Bool
  /-- RES (R14). -/
  res : Res
  /-- DUR, the Pulse Duration Sequence (R17). -/
  dur : Vector Ts 85
  /-- CC, the Compliance Counter (R18). -/
  cc : Byte
  /-- BITPTR, the bit pointer (R19). -/
  bitptr : BitVec 3
  /-- FIELD[0..4]: HH, HL, TH, TL, PAR (R20). -/
  field : Vector Byte 5
  /-- What the input ports will show, oldest first: the environment's, not the core's (R26). Log entry 7. -/
  inputs : List PortSample
  /-- The model's own: steps taken, the argument of free values. Log entry 8. -/
  tick : Nat
  /-- The model's own: resets taken, the argument of the free contents of LOG. Log entry 6. -/
  resets : Nat
  deriving DecidableEq, Repr

/-- The machine never stops with a fault: "every command in every state either has a defined effect or (U1 only) is
refused by the model" (93_implementation_defined.md, section 1). A failure code is a value of RES, not a fault. -/
inductive Fault where
  deriving DecidableEq, Repr

/-- Why a step has no meaning. -/
inductive Refusal where
  /-- Raised by an arm of exec for an instruction without a meaning; none is left. Safe. -/
  | notModelled (mnemonic : String)
  /-- Raised by DECODE when EN = 1: the spec gives that case no meaning and says a model refuses it
  (41_session_decode.md R113, U1). Safe: nothing is proved of what the hardware then does. Log entry 13. -/
  | decodeWhileArmed
  /-- Raised by step if the port word it fetched were no operation; fetch never gives one
  (Laws/Step.lean, fetch_word_decodes). Safe. -/
  | noOperation (r : DecodeReject)
  deriving DecidableEq, Repr

/-- The outcome of an operation. -/
abbrev Outcome := Host.Outcome State Fault Refusal

namespace State

/-! Single updates, one a register. -/

def setLog (s : State) (m : Memory) : State := { s with log := m }
def setIdx (s : State) (v : Byte) : State := { s with idx := v }
def setEn (s : State) (b : Bool) : State := { s with en := b }
def setRes (s : State) (r : Res) : State := { s with res := r }
def setDur (s : State) (d : Vector Ts 85) : State := { s with dur := d }
def setCc (s : State) (v : Byte) : State := { s with cc := v }
def setBitptr (s : State) (v : BitVec 3) : State := { s with bitptr := v }
def setField (s : State) (v : Vector Byte 5) : State := { s with field := v }

/-- A step has used up its input: the samples left, and one more step taken. -/
def advance (s : State) (left : List PortSample) : State := { s with inputs := left, tick := s.tick + 1 }

/-- The machine right after reset (10_state.md R28, 70_reset_and_hazards.md R210): IDX = 0, EN = 0, RES = None, no
entry of LOG written. DUR, CC, BITPTR and FIELD: DESIGN CHOICE 0, log entry 5. No input waits (log entry 7). -/
def reset : State where
  log := []
  idx := 0
  en := false
  res := .none
  dur := Vector.replicate 85 0
  cc := 0
  bitptr := 0
  field := Vector.replicate 5 0
  inputs := []
  tick := 0
  resets := 0

end State

end Sys2Proof.Machine
end

