-- ==== Sys2Proof/Machine/Ops.lean ====
section
/-! DEFINITION. The shared operations: the memory, the log, the bit of a byte, `raise`, the stages' sequencing, reset. -/

namespace Sys2Proof.Machine

/-! ## Memory: one whole entry at an entry index (20_memory.md R40, R44) -/

/-- The entry at index `i`, none where nothing has been written since reset. -/
def Memory.read? (m : Memory) (i : Nat) : Option Ts :=
  match m with
  | [] => none
  | (a, v) :: rest => if a = i then some v else Memory.read? rest i

/-- Write the entry at index `i`, keeping the indices rising. -/
def Memory.write (m : Memory) (i : Nat) (v : Ts) : Memory :=
  match m with
  | [] => [(i, v)]
  | (a, u) :: rest =>
    if i < a then (i, v) :: (a, u) :: rest
    else if i = a then (i, v) :: rest
    else (a, u) :: Memory.write rest i v

/-- Indices strictly rising from `lo`, all below LOG_SIZE = 256. -/
def Memory.wfFrom (lo : Nat) : Memory → Bool
  | [] => true
  | (a, _) :: rest => decide (lo ≤ a) && decide (a < Config.logSize) && Memory.wfFrom (a + 1) rest

/-- The canonical form of the log. An unlisted index has no value of its own, so no listed entry can equal it. -/
def Memory.wf (m : Memory) : Bool := Memory.wfFrom 0 m

/-- A read of LOG: the value last written, or an unspecified value where nothing has been written since reset
(20_memory.md R44, 10_state.md R28). -/
def State.logRead (s : State) (i : Nat) : Ts :=
  match Memory.read? s.log i with
  | some v => v
  | none => Config.unwrittenEntry s.resets i

/-- One recording: LOG[IDX] <- t and IDX <- (IDX + 1) mod 256 in a single atomic step (20_memory.md R44). -/
def State.record (s : State) (t : Ts) : State :=
  (s.setLog (Memory.write s.log s.idx.toNat t)).setIdx (s.idx + 1)

/-! ## Bits of a byte -/

/-- `v[i] <- b`. -/
def withBit (v : Byte) (i : BitVec 3) (b : Bool) : Byte :=
  if b then v ||| (1#8 <<< i.toNat) else v &&& ~~~(1#8 <<< i.toNat)

/-- `FIELD[f][BITPTR] <- b` (44_bit_decoder.md R152). -/
def State.writeFieldBit (s : State) (f : Fin 5) (b : Bool) : State :=
  s.setField (s.field.set f.val (withBit (s.field.get f) s.bitptr b) f.isLt)

/-! ## Failures: the core's only exceptions (60_exceptions.md R186) -/

/-- `raise <Name>(code)`: RES <- Err(code), and nothing else. That no later stage runs is `Stage.andThen`'s part. There is
no return from it: a failure has no handler (R188). -/
def State.raise (s : State) (c : FailCode) : State := s.setRes (.err c)

/-- What a stage of DECODE leaves: go on, or the DECODE has ended by a raise. -/
inductive Stage where
  | pass (s : State)
  | raised (s : State)

/-- The next stage runs only if no earlier stage raised (41_session_decode.md R111, R115). -/
def Stage.andThen (r : Stage) (f : State → Stage) : Stage :=
  match r with
  | .pass s => f s
  | .raised s => .raised s

/-- The state the DECODE ends in. -/
def Stage.final : Stage → State
  | .pass s => s
  | .raised s => s

/-! ## Reset -/

/-- Reset in mid-run (70_reset_and_hazards.md R210): the reset state; the unwritten log has fresh unspecified contents;
the inputs still to come are the environment's. -/
def State.applyReset (s : State) (left : List PortSample) : State :=
  { State.reset with inputs := left, tick := s.tick + 1, resets := s.resets + 1 }

end Sys2Proof.Machine
end

