-- ==== Sys2Proof/Machine/Operands.lean ====
section
/-! DEFINITION. Where DECODE's stages find their operands: fixed positions of DUR and of the fields. -/

namespace Sys2Proof.Machine

/-- DUR[i] (10_state.md R17). -/
def State.durRead (s : State) (i : Fin 85) : Ts := s.dur.get i

/-- The pair number k = 8*f + j of bit pair `j` of field `f` (44_bit_decoder.md R152). -/
def pairNumber (f : Fin 5) (j : Fin 8) : Fin 40 := ⟨8 * f.val + j.val, by omega⟩

/-- The low part of data pair `k`, DUR[4 + 2k] (30_encoding.md R61, R63). -/
def State.pairLow (s : State) (k : Fin 40) : Ts := s.durRead ⟨4 + 2 * k.val, by omega⟩

/-- The high part of data pair `k`, DUR[5 + 2k] (R61, R63). -/
def State.pairHigh (s : State) (k : Fin 40) : Ts := s.durRead ⟨5 + 2 * k.val, by omega⟩

/-- FIELD[f] (10_state.md R20). -/
def State.fieldRead (s : State) (f : Fin 5) : Byte := s.field.get f

/-- humidity-high -/
def State.hh (s : State) : Byte := s.fieldRead 0
/-- humidity-low -/
def State.hl (s : State) : Byte := s.fieldRead 1
/-- temperature-high -/
def State.th (s : State) : Byte := s.fieldRead 2
/-- temperature-low -/
def State.tl (s : State) : Byte := s.fieldRead 3
/-- parity -/
def State.par (s : State) : Byte := s.fieldRead 4

end Sys2Proof.Machine
end

