-- ==== Sys2Proof/Machine/Flags.lean ====
section
/-! DEFINITION. The flags of the core (10_state.md R22): the window test, the Compliance Counter as a gate, the checkpoints. -/

namespace Sys2Proof.Machine

/-- `in(d, [lo, hi])`: lo ≤ d ≤ hi as unsigned numbers, inclusive at both ends (43_protocol_validator.md R130). -/
def inWindow {w : Nat} (d : BitVec w) (win : Window) : Bool :=
  decide (win.lo ≤ d.toNat) && decide (d.toNat ≤ win.hi)

/-- CC <- CC + 1 for a passed check, unchanged otherwise (R131). -/
def State.countIf (s : State) (passed : Bool) : State := if passed then s.setCc (s.cc + 1) else s

/-- A checkpoint: CC below the threshold raises the code (R133, R137, R138). -/
def checkpoint (threshold : Nat) (c : FailCode) (s : State) : Stage :=
  if s.cc.toNat < threshold then .raised (s.raise c) else .pass s

end Sys2Proof.Machine
end

