-- ==== Sys2Proof/Machine/EdgeRecorder.lean ====
section
/-! DEFINITION. The Edge Recorder family (40_edge_recorder.md): EDGE, NOP, CLEAR, ARM, DISARM, and the reserved codes. -/

namespace Sys2Proof.Machine

/-- EDGE (R91): recorded when EN = 1, dropped without a trace when EN = 0 (R97). -/
def execEdge (t : Ts) (s : State) : Outcome := .next (if s.en then s.record t else s)

/-- NOP (R92). -/
def execNop (s : State) : Outcome := .next s

/-- CLEAR (R93): IDX <- 0, whatever EN is. -/
def execClear (s : State) : Outcome := .next (s.setIdx 0)

/-- ARM (R94): EN <- 1. -/
def execArm (s : State) : Outcome := .next (s.setEn true)

/-- DISARM (R95): EN <- 0. -/
def execDisarm (s : State) : Outcome := .next (s.setEn false)

/-- Command code 5 (30_encoding.md R71): no state change, exactly as NOP. -/
def execReserved5 (s : State) : Outcome := .next s

/-- Command code 6 (R71). -/
def execReserved6 (s : State) : Outcome := .next s

/-- Command code 7 (R71). -/
def execReserved7 (s : State) : Outcome := .next s

end Sys2Proof.Machine
end

