-- ==== Sys2Proof/Machine/ProtocolValidator.lean ====
section
/-! DEFINITION. The Protocol Validator, stages 2 and 4 of DECODE and the checkpoint of stage 3 (43_protocol_validator.md). -/

namespace Sys2Proof.Machine

/-- InitialCheck, first half (R132): one check for each of the first four durations. -/
def initialCounts (s : State) : State :=
  (((s.countIf (inWindow (s.durRead 0) Config.wS1L)).countIf (inWindow (s.durRead 1) Config.wS1H)).countIf
    (inWindow (s.durRead 2) Config.wS2L)).countIf (inWindow (s.durRead 3) Config.wS2H)

/-- InitialCheck (R132, R133). -/
def initialCheck (s : State) : Stage :=
  checkpoint Config.thInit .initialSignalInvalid (initialCounts s)

/-- A compliant data pair (R134). -/
def compliant {w : Nat} (lo hi : BitVec w) : Bool :=
  inWindow lo Config.wS3L && (inWindow hi Config.wS3H0 || inWindow hi Config.wS3H1)

/-- The checkpoint after the data section, under SPLIT only (R138). -/
def dataCheckpoint (p : Params) (s : State) : Stage :=
  match p.ckptMode with
  | .merged => .pass s
  | .split => checkpoint Config.thData .dataOrTerminalInvalid s

/-- The code of the final checkpoint: 3 under MERGED (R137), 4 under SPLIT (R138). -/
def finalCode : CkptMode → FailCode
  | .merged => .dataOrTerminalInvalid
  | .split => .terminalInvalid

/-- TerminalCheck (R136, R137, R138). -/
def terminalCheck (p : Params) (s : State) : Stage :=
  checkpoint Config.thFinal (finalCode p.ckptMode) (s.countIf (inWindow (s.durRead 84) Config.wS4L))

end Sys2Proof.Machine
end

