-- ==== Sys2Proof/Machine/BitDecoder.lean ====
section
/-! DEFINITION. The Bit Decoder, stage 3 of DECODE (44_bit_decoder.md). -/

namespace Sys2Proof.Machine

/-- The three symbols of the code (30_encoding.md R63). -/
inductive Symbol where
  | zero
  | one
  | none
  deriving DecidableEq, Repr

/-- The classification of a pair (R151). -/
def classify {w : Nat} (lo hi : BitVec w) : Symbol :=
  if inWindow lo Config.wS3L && inWindow hi Config.wS3H0 then .zero
  else if inWindow lo Config.wS3L && inWindow hi Config.wS3H1 then .one
  else .none

/-- The effect of a symbol on the current bit and on the counter (R152; 30_encoding.md R63). -/
def applySymbol (f : Fin 5) (sym : Symbol) (s : State) : State :=
  match sym with
  | .zero => (s.writeFieldBit f false).countIf true
  | .one => (s.writeFieldBit f true).countIf true
  | .none => s

/-- One pair of field `f`; the bit pointer goes down after every pair, whatever the symbol (R153).
Irreducible for proofs only: they go through Laws/DataSection.lean. -/
@[irreducible] def pairStep (f : Fin 5) (j : Fin 8) (s : State) : State :=
  let s' := applySymbol f (classify (s.pairLow (pairNumber f j)) (s.pairHigh (pairNumber f j))) s
  s'.setBitptr (s'.bitptr - 1)

/-- The eight pairs of field `f`, BITPTR starting at 7 (R152). -/
def fieldLoop (f : Fin 5) (s : State) : State :=
  [0, 1, 2, 3, 4, 5, 6, 7].foldl (fun s j => pairStep f j s) (s.setBitptr 7)

/-- The five fields in order, all set to 0 first (R150, R152). -/
def dataLoop (s : State) : State :=
  [0, 1, 2, 3, 4].foldl (fun s f => fieldLoop f s) (s.setField (Vector.replicate 5 0))

/-- DataSection (R152), with the SPLIT checkpoint at its end (43_protocol_validator.md R138). -/
def dataSection (p : Params) (s : State) : Stage := dataCheckpoint p (dataLoop s)

end Sys2Proof.Machine
end

