-- ==== Sys2Proof/Machine/DurationConverter.lean ====
section
/-! DEFINITION. The Duration Converter, stage 1 of DECODE (42_duration_converter.md). -/

namespace Sys2Proof.Machine

/-- `delta(earlier, later)` (R120): the wrapped branch adds WRAP_K, computed in integers. At every width, so that the
law does not rest on TS_W = 32 (92_eei_decisions.md D1). -/
def delta {w : Nat} (wrapK : Nat) (earlier later : BitVec w) : BitVec w :=
  if later.toNat < earlier.toNat then BitVec.ofNat w ((wrapK - earlier.toNat) + later.toNat)
  else BitVec.ofNat w (later.toNat - earlier.toNat)

/-- Convert (R121): DUR[i] <- delta(LOG[i], LOG[i+1]) for i = 0 to 84. -/
def convert (p : Params) (s : State) : Stage :=
  .pass (s.setDur (Vector.ofFn fun i : Fin 85 => delta p.wrapK (s.logRead i.val) (s.logRead (i.val + 1))))

end Sys2Proof.Machine
end

