-- ==== Sys2Proof/Machine/ValueAssembler.lean ====
section
/-! DEFINITION. The Value Assembler, stages 5 and 6 of DECODE (45_value_assembler.md). -/

namespace Sys2Proof.Machine

/-- ParityCheck (R160): the 8-bit truncated sum of the four data bytes. -/
def parityCheck (s : State) : Stage :=
  if s.par = s.hh + s.hl + s.th + s.tl then .pass s else .raised (s.raise .parityError)

/-- Two bytes as one 16-bit value, high byte first (R161, R162). -/
def joinBytes (high low : Byte) : BitVec 16 := (high.setWidth 16 <<< 8) ||| low.setWidth 16

/-- The sign-magnitude value of a raw temperature: bit 15 the sign, bits 14:0 the magnitude (R162). -/
def signMagnitude (raw : BitVec 16) : Int :=
  let mag : BitVec 15 := raw.extractLsb' 0 15
  if raw.getLsbD 15 then -(mag.toNat : Int) else (mag.toNat : Int)

/-- AssembleAndRange (R161 to R164). -/
def assembleAndRange (s : State) : Stage :=
  let hraw := joinBytes s.hh s.hl
  let tval := signMagnitude (joinBytes s.th s.tl)
  if hraw.toNat > Config.humMax ∨ tval < Config.tempMin ∨ tval > Config.tempMax then .raised (s.raise .rangeError)
  else .pass (s.setRes (.ok hraw (BitVec.ofInt 16 tval)))

end Sys2Proof.Machine
end

