-- ==== Sys2Proof/Machine/Session.lean ====
section
/-! DEFINITION. The DECODE operation: its precondition, stage 0, and the order of its stages (41_session_decode.md). -/

namespace Sys2Proof.Machine

/-- CountCheck, stage 0 (R112). -/
def countCheck (s : State) : Stage :=
  if s.idx ≠ Config.nEdges then .raised (s.raise .edgeCountMismatch) else .pass s

/-- The stages 0 to 6 in their one order (R110, R111), the counter reset first (43_protocol_validator.md R131;
log entry 14). -/
def decodeStages (p : Params) (s : State) : Stage :=
  (((((countCheck (s.setCc 0)).andThen (convert p)).andThen initialCheck).andThen (dataSection p)).andThen
    (terminalCheck p)).andThen parityCheck |>.andThen assembleAndRange

/-- DECODE under the parameters `p`: EN = 0 is required (R113), and the whole is one atomic step (R110). -/
def decodeWith (p : Params) (s : State) : Outcome :=
  if s.en then .refused .decodeWhileArmed else .next (decodeStages p s).final

/-- DECODE (R110), under the parameters decided for this hardware (00_scope.md R5). -/
def execDecode (s : State) : Outcome := decodeWith Config.decided s

end Sys2Proof.Machine
end

