-- ==== Sys2Proof/Machine/Ports.lean ====
section
/-! DEFINITION. The ports (10_state.md R24): the operation the next step takes, and what the output ports show. -/

namespace Sys2Proof.Machine

/-- A moment at which no port is driven. -/
def PortSample.quiet : PortSample := ⟨false, false, 0, false, 0⟩

/-- The event word of a sample: the strobe in bit 32, `now` below it (30_encoding.md R73). -/
def PortSample.eventWord (p : PortSample) : PortWord := .evt (BitVec.ofBool p.edgeStb ++ p.now)

/-- The sample with its edge taken. -/
def PortSample.edgeTaken (p : PortSample) : PortSample := { p with edgeStb := false }

/-- The sample with its command taken. -/
def PortSample.cmdTaken (p : PortSample) : PortSample := { p with cmdStb := false }

/-- The operation of a sample to take first, and what is left of the sample. Where an edge and a command coincide either
may go first (60_exceptions.md R185): `edgeFirst` says which. -/
def PortSample.take (edgeFirst : Bool) (p : PortSample) : Option (PortWord × PortSample) :=
  match p.edgeStb, p.cmdStb with
  | false, false => none
  | true, false => some (p.eventWord, p.edgeTaken)
  | false, true => some (.cmd p.cmd, p.cmdTaken)
  | true, true => if edgeFirst then some (p.eventWord, p.edgeTaken) else some (.cmd p.cmd, p.cmdTaken)

/-- Put what is left of a sample back in front of the later ones, if anything is left. -/
def PortSample.putBack (p : PortSample) (later : List PortSample) : List PortSample :=
  if p.edgeStb || p.cmdStb then p :: later else later

/-- What the next step does: nothing, a reset, or the operation of a port word; with the samples left after it. -/
inductive Fetch where
  | quiet (left : List PortSample)
  | reset (left : List PortSample)
  | word (w : PortWord) (left : List PortSample)
  deriving DecidableEq, Repr

/-- The next input of the core. Reset abandons what coincides with it (70_reset_and_hazards.md R210; log entry 9). -/
def fetch (s : State) : Fetch :=
  match s.inputs with
  | [] => .quiet []
  | p :: later =>
    if p.rst then .reset later
    else
      match p.take (Config.edgeFirst s.tick) with
      | none => .quiet later
      | some (w, left) => .word w (left.putBack later)

/-- The sample that carries a port word. -/
def PortSample.ofWord : PortWord → PortSample
  | .cmd op => { PortSample.quiet with cmdStb := true, cmd := op }
  | .evt bits => { PortSample.quiet with edgeStb := bits.getLsbD 32, now := bits.setWidth 32 }

/-- The sample that carries a row of spec/opcode_table.json; a quiet one where the bits are no word of either port. -/
def PortSample.ofTable (nbits w : Nat) : PortSample :=
  match portWordOfNumber (w % 2 ^ nbits) with
  | .ok pw => PortSample.ofWord pw
  | .error _ => PortSample.quiet

/-- The output ports (R24). -/
structure Outputs where
  en : BitVec 1
  idx : BitVec 8
  resDone : BitVec 1
  resCode : BitVec 3
  resHum : BitVec 16
  resTemp : BitVec 16
  deriving DecidableEq, Repr

/-- The number of a failure code (30_encoding.md R66). -/
def FailCode.number : FailCode → BitVec 3
  | .edgeCountMismatch => 1
  | .initialSignalInvalid => 2
  | .dataOrTerminalInvalid => 3
  | .terminalInvalid => 4
  | .parityError => 5
  | .rangeError => 6

/-- What the output ports show (10_state.md R23; 30_encoding.md R67): where a port carries no meaning, any value
(log entry 10). -/
def State.outputs (s : State) : Outputs where
  en := BitVec.ofBool s.en
  idx := s.idx
  resDone := match s.res with
    | .none => 0
    | .err _ => 1
    | .ok _ _ => 1
  resCode := match s.res with
    | .none => Config.anyCode s.tick
    | .err c => c.number
    | .ok _ _ => 0
  resHum := match s.res with
    | .none => Config.anyHum s.tick
    | .err _ => Config.anyHum s.tick
    | .ok hum _ => hum
  resTemp := match s.res with
    | .none => Config.anyTemp s.tick
    | .err _ => Config.anyTemp s.tick
    | .ok _ temp => temp

end Sys2Proof.Machine
end

