-- ==== Sys2Proof/Machine/Step.lean ====
section
/-! DEFINITION. One step: take the next input and run its operation (20_memory.md R48). -/

namespace Sys2Proof.Machine

/-- One step of the core. The input is used up first, then the operation runs; with no input nothing happens
(70_reset_and_hazards.md R211; log entry 17). -/
def step (s : State) : Host.Outcome State Fault Refusal :=
  match fetch s with
  | .quiet left => .next (s.advance left)
  | .reset left => .next (s.applyReset left)
  | .word w left =>
    match decode w with
    | .ok i => exec i (s.advance left)
    | .error r => .refused (.noOperation r)

/-- `s` with the operation of a table row's bits as the very next input. Log entry 18. -/
def State.withFetchWord (s : State) (nbits w : Nat) : State :=
  { s with inputs := PortSample.ofTable nbits w :: s.inputs }

end Sys2Proof.Machine
end

