-- ==== Sys2Proof/Safety.lean ====
section
/-! DEFINITION. What claims are stated in: the reference decoder (a pure function of the count and the timestamps), the
invariant of a run, sequences of operations, and ranges of results. -/

namespace Sys2Proof.Machine

/-! ## The reference decoder

41_session_decode.md R114: RES after DECODE is a function of IDX and LOG[0..85] alone. This is that function, written from
the rules as a check on the durations with no counter, no bit pointer and no field registers, at any width of timestamp. -/

namespace Frame

/-- The durations of a log (42_duration_converter.md R121). -/
def durations {w : Nat} (p : Params) (ts : Nat → BitVec w) (i : Nat) : BitVec w := delta p.wrapK (ts i) (ts (i + 1))

/-- The first four durations are in their windows (43_protocol_validator.md R132). -/
def initialOk {w : Nat} (d : Nat → BitVec w) : Bool :=
  inWindow (d 0) Config.wS1L && inWindow (d 1) Config.wS1H && inWindow (d 2) Config.wS2L && inWindow (d 3) Config.wS2H

/-- All forty pairs are compliant (R134, R135). -/
def dataOk {w : Nat} (d : Nat → BitVec w) : Bool :=
  (List.range 40).all fun k => compliant (d (4 + 2 * k)) (d (5 + 2 * k))

/-- The terminal duration is in its window (R136). -/
def terminalOk {w : Nat} (d : Nat → BitVec w) : Bool := inWindow (d 84) Config.wS4L

/-- The bit pair `k` carries (30_encoding.md R63). -/
def bit {w : Nat} (d : Nat → BitVec w) (k : Nat) : Nat :=
  if inWindow (d (4 + 2 * k)) Config.wS3L && inWindow (d (5 + 2 * k)) Config.wS3H1 then 1 else 0

/-- Field `f` as a number: its eight pairs, the first the most significant (R64). -/
def byte {w : Nat} (d : Nat → BitVec w) (f : Nat) : Nat :=
  128 * bit d (8 * f) + 64 * bit d (8 * f + 1) + 32 * bit d (8 * f + 2) + 16 * bit d (8 * f + 3) +
    8 * bit d (8 * f + 4) + 4 * bit d (8 * f + 5) + 2 * bit d (8 * f + 6) + bit d (8 * f + 7)

/-- The raw temperature as a number of tenths: the top bit is the sign (45_value_assembler.md R162). -/
def temperature (raw : Nat) : Int := if raw < 2 ^ 15 then (raw : Int) else -((raw - 2 ^ 15 : Nat) : Int)

/-- The accepted values (R163). -/
def inRange (hum : Nat) (temp : Int) : Bool :=
  decide (hum ≤ Config.humMax) && decide (Config.tempMin ≤ temp) && decide (temp ≤ Config.tempMax)

/-- The five bytes to a result: parity before range (R160 to R164, R167). -/
def assemble (hh hl th tl par : Nat) : Res :=
  if par ≠ (hh + hl + th + tl) % 256 then .err .parityError
  else if inRange (256 * hh + hl) (temperature (256 * th + tl)) then
    .ok (BitVec.ofNat 16 (256 * hh + hl)) (BitVec.ofInt 16 (temperature (256 * th + tl)))
  else .err .rangeError

/-- The verdict on 85 durations: the first failing check decides (60_exceptions.md R184). -/
def verdictOfDurations {w : Nat} (mode : CkptMode) (d : Nat → BitVec w) : Res :=
  if initialOk d = false then .err .initialSignalInvalid
  else if dataOk d = false then .err .dataOrTerminalInvalid
  else if terminalOk d = false then .err (finalCode mode)
  else assemble (byte d 0) (byte d 1) (byte d 2) (byte d 3) (byte d 4)

/-- The verdict on a count and a log (R112, R114). -/
def verdict {w : Nat} (p : Params) (count : Nat) (ts : Nat → BitVec w) : Res :=
  if count ≠ 86 then .err .edgeCountMismatch else verdictOfDurations p.ckptMode (durations p ts)

end Frame

/-! ## The checks of a frame, in the spec's own numbers (00_scope.md R4, with WRAP_K = M, log entry 2) -/

/-- The microseconds from edge `i` to edge `i + 1` of the log, modulo 2^32 (42_duration_converter.md R122). -/
def State.interval (s : State) (i : Nat) : Nat := (s.logRead (i + 1) - s.logRead i).toNat

/-- The four checks of the initial signal (43_protocol_validator.md R132). -/
abbrev State.InitialInWindows (s : State) : Prop :=
  (800 ≤ s.interval 0 ∧ s.interval 0 ≤ 20000) ∧ (20 ≤ s.interval 1 ∧ s.interval 1 ≤ 200) ∧
    (75 ≤ s.interval 2 ∧ s.interval 2 ≤ 85) ∧ (75 ≤ s.interval 3 ∧ s.interval 3 ≤ 85)

/-- How many of the four checks of the initial signal pass (R132). -/
def State.initialChecksPassed (s : State) : Nat :=
  (if 800 ≤ s.interval 0 ∧ s.interval 0 ≤ 20000 then 1 else 0) + (if 20 ≤ s.interval 1 ∧ s.interval 1 ≤ 200 then 1 else 0) +
    (if 75 ≤ s.interval 2 ∧ s.interval 2 ≤ 85 then 1 else 0) + (if 75 ≤ s.interval 3 ∧ s.interval 3 ≤ 85 then 1 else 0)

/-- Pair `k` is a ZERO (30_encoding.md R63). -/
abbrev State.PairIsZero (s : State) (k : Nat) : Prop :=
  (48 ≤ s.interval (4 + 2 * k) ∧ s.interval (4 + 2 * k) ≤ 69) ∧
    (22 ≤ s.interval (5 + 2 * k) ∧ s.interval (5 + 2 * k) ≤ 30)

/-- Pair `k` is a ONE (R63). -/
abbrev State.PairIsOne (s : State) (k : Nat) : Prop :=
  (48 ≤ s.interval (4 + 2 * k) ∧ s.interval (4 + 2 * k) ≤ 69) ∧
    (68 ≤ s.interval (5 + 2 * k) ∧ s.interval (5 + 2 * k) ≤ 75)

/-- Pair `k` is compliant (43_protocol_validator.md R134). -/
abbrev State.PairCompliant (s : State) (k : Nat) : Prop := s.PairIsZero k ∨ s.PairIsOne k

/-- The terminal check (R136). -/
abbrev State.TerminalInWindow (s : State) : Prop := 45 ≤ s.interval 84 ∧ s.interval 84 ≤ 55

/-- A recorder that is disarmed with the one accepted count, so that DECODE passes its stage 0. -/
abbrev State.Counted (s : State) : Prop := s.en = false ∧ s.idx = 86

/-- All 45 timing checks pass (R137). -/
abbrev State.Timed (s : State) : Prop :=
  s.Counted ∧ s.InitialInWindows ∧ (∀ k < 40, s.PairCompliant k) ∧ s.TerminalInWindow

/-- FIELD[f] as a number. -/
def State.fieldNat (s : State) (f : Fin 5) : Nat := (s.field.get f).toNat

/-! ## Results -/

/-- The values RES can hold on this hardware (10_state.md R29 d; 30_encoding.md R68): no code 4 under MERGED. -/
def Res.legal (mode : CkptMode) : Res → Prop
  | .none => True
  | .err c => mode = .merged → c ≠ .terminalInvalid
  | .ok hum temp => hum.toNat ≤ 999 ∧ 0 ≤ hum.toInt ∧ -400 ≤ temp.toInt ∧ temp.toInt ≤ 1250

/-! ## The invariant of a run -/

/-- What every step keeps: LOG has its canonical form, every entry below IDX has been written since reset (so that no DECODE
reads an unspecified entry, 70_reset_and_hazards.md R211), and RES is legal (10_state.md R29 d). -/
structure State.Inv (s : State) : Prop where
  canonical : Memory.wf s.log = true
  written : ∀ i, i < s.idx.toNat → (Memory.read? s.log i).isSome = true
  legal : Res.legal Config.decided.ckptMode s.res

/-! ## Sequences of operations -/

/-- The operations of a list one after the other, stopping where one has no meaning. -/
def execAll : List Instr → State → Outcome
  | [], s => .next s
  | i :: rest, s =>
    match exec i s with
    | .next t => execAll rest t
    | .fault r => .fault r
    | .refused r => .refused r

/-- A burst of edges (30_encoding.md R76, `EDGES t0 t1 ... tn`). -/
def edges (ts : List Ts) : List Instr := ts.map Instr.edge

end Sys2Proof.Machine
end

