-- ==== Sys2Proof/Certificates/Slice0/Obligations.lean ====
section
/-! DEFINITION. The statements for the provers. -/

open Sys2Proof Sys2Proof.Machine

/-! ## Encoding -/

/-- 30_encoding.md R70, R71, R73: the command codes and two event words, written out. -/
def Obligations.PortWordsDecodeAsTheTableSays : Prop :=
  decode (.cmd 0b000#3) = .ok .nop ∧ decode (.cmd 0b001#3) = .ok .clear ∧ decode (.cmd 0b010#3) = .ok .arm ∧
  decode (.cmd 0b011#3) = .ok .disarm ∧ decode (.cmd 0b100#3) = .ok .decode ∧
  decode (.cmd 0b101#3) = .ok .reserved5 ∧ decode (.cmd 0b110#3) = .ok .reserved6 ∧
  decode (.cmd 0b111#3) = .ok .reserved7 ∧
  decode (.evt 0b100000000000000000000010010110000#33) = .ok (.edge 1200) ∧
  decode (.evt 0b000000000000000000000010010110000#33) = .error .strobeClear

/-- Decoding undoes encoding, and every accepted port word is the encoding of what it decodes to: no word has two
meanings and no operation two words (30_encoding.md R70, R73, R75). -/
def Obligations.PortWordsRoundTrip : Prop :=
  (∀ i : Instr, decode (encode i) = .ok i) ∧ (∀ (w : PortWord) (i : Instr), decode w = .ok i → encode i = w)

/-- The same through the byte images and the numbers of spec/opcode_table.json, with every operand value; the byte order
is the model's choice (log entry 11). -/
def Obligations.ByteImagesRoundTrip : Prop :=
  (∀ i : Instr, i.wf = true → decodeBytes (encodeBytes i) = .ok i) ∧
  (∀ (bs : List Byte) (i : Instr), decodeBytes bs = .ok i → portWordOfNumber (numberOfBytes bs) = .ok (encode i)) ∧
  (∀ op : BitVec 3, ∃ i, decode (.cmd op) = .ok i ∧ decodeTableWord 8 op.toNat = some i) ∧
  (∀ t : Ts, decodeTableWord 40 (2 ^ 32 + t.toNat) = some (.edge t))

/-! ## The step -/

/-- A step runs the operation its port word decodes to, on the state with that input used up. -/
def Obligations.StepRunsTheDecodedOperation : Prop :=
  ∀ (s : State) (w : PortWord) (left : List PortSample) (i : Instr),
    fetch s = .word w left → decode w = .ok i → step s = exec i (s.advance left)

/-- What the ports show is what runs (10_state.md R24; 30_encoding.md R69, R73): an edge strobe alone runs EDGE with `now`,
a command strobe alone runs its code, and a moment with neither changes nothing but the model's own input and tick. -/
def Obligations.PortsReachTheirOperation : Prop :=
  ∀ (s : State) (p : PortSample) (later : List PortSample), s.inputs = p :: later → p.rst = false →
    (p.edgeStb = true → p.cmdStb = false → step s = exec (.edge p.now) (s.advance later)) ∧
    (p.edgeStb = false → p.cmdStb = true →
      ∃ i, decode (.cmd p.cmd) = .ok i ∧ step s = exec i (s.advance later)) ∧
    (p.edgeStb = false → p.cmdStb = false → step s = .next (s.advance later))

/-- 60_exceptions.md R185: an edge and a command that coincide are taken one after the other, in one of the two orders,
and the second is the very next input. Which order is a free value (log entry 8). -/
def Obligations.CoincidingEdgeAndCommandRunInEitherOrder : Prop :=
  ∀ (s : State) (p : PortSample) (later : List PortSample) (i : Instr), s.inputs = p :: later → p.rst = false →
    p.edgeStb = true → p.cmdStb = true → decode (.cmd p.cmd) = .ok i →
    (∃ left, step s = exec (.edge p.now) (s.advance left) ∧
      ∀ t : State, t.inputs = left → step t = exec i (t.advance later)) ∨
    (∃ left, step s = exec i (s.advance left) ∧
      ∀ t : State, t.inputs = left → step t = exec (.edge p.now) (t.advance later))

/-- `withFetchWord` makes the very next step run the row's operation, and nothing else (the model's own, log entry 18). -/
def Obligations.TableWordIsTheNextStep : Prop :=
  ∀ (s : State) (nbits w : Nat) (i : Instr), decodeTableWord nbits w = some i →
    step (s.withFetchWord nbits w) = exec i (s.advance s.inputs)

/-- 70_reset_and_hazards.md R211: with no input the core does nothing: every step leaves all the spec's state as it was. -/
def Obligations.QuietCoreDoesNothing : Prop :=
  ∀ s : State, s.inputs = [] → step s = .next { s with tick := s.tick + 1 }

/-! ## Reset -/

/-- 10_state.md R28: what the spec gives of the state after reset; no entry of LOG has a value of its own. -/
def Obligations.ResetStateIsTheSpecs : Prop :=
  State.reset.idx = 0 ∧ State.reset.en = false ∧ State.reset.res = .none ∧
    ∀ i, State.reset.logRead i = Config.unwrittenEntry State.reset.resets i

/-- 70_reset_and_hazards.md R210: reset at any time, whatever coincides with it, gives the reset values, and the log is
unspecified again. That coinciding strobes are dropped is the model's reading (log entry 9). -/
def Obligations.ResetAtAnyTimeGivesTheResetState : Prop :=
  ∀ (s : State) (p : PortSample) (later : List PortSample), s.inputs = p :: later → p.rst = true →
    ∃ t, step s = .next t ∧ t.idx = 0 ∧ t.en = false ∧ t.res = .none ∧ t.inputs = later ∧
      ∀ i, t.logRead i = Config.unwrittenEntry (s.resets + 1) i

/-- 70_reset_and_hazards.md R211: a DECODE before any capture gives Err(1), and an EDGE before the first ARM is dropped. -/
def Obligations.ResetThenDecodeGivesCodeOne : Prop :=
  (∃ t, exec .decode State.reset = .next t ∧ t.res = .err .edgeCountMismatch) ∧
    ∀ u : Ts, exec (.edge u) State.reset = .next State.reset

/-! ## The Edge Recorder -/

/-- 40_edge_recorder.md R91: an armed EDGE writes its timestamp at IDX and advances IDX modulo 256, in one step, and
changes nothing else: every other entry of LOG reads as before. -/
def Obligations.ArmedEdgeRecordsAtTheIndex : Prop :=
  ∀ (t : Ts) (s : State), decode (.evt (1#1 ++ t)) = .ok (.edge t) ∧
    (s.en = false → exec (.edge t) s = .next s) ∧
    (s.en = true → ∃ s', exec (.edge t) s = .next s' ∧
      s'.idx.toNat = (s.idx.toNat + 1) % 256 ∧ s'.logRead s.idx.toNat = t ∧
      (∀ a, a ≠ s.idx.toNat → s'.logRead a = s.logRead a) ∧
      s'.en = s.en ∧ s'.res = s.res ∧ s'.dur = s.dur ∧ s'.cc = s.cc ∧ s'.bitptr = s.bitptr ∧ s'.field = s.field ∧
      s'.inputs = s.inputs ∧ s'.tick = s.tick ∧ s'.resets = s.resets)

/-- 40_edge_recorder.md R97: a disarmed EDGE changes no state, so arming later is arming the state before it. -/
def Obligations.DisarmedEdgeLeavesNoTrace : Prop :=
  ∀ (t : Ts) (s : State), s.en = false →
    exec (.edge t) s = .next s ∧ execAll [.edge t, .arm] s = execAll [.arm] s

/-- 40_edge_recorder.md R92 and 30_encoding.md R71: NOP and the codes 5, 6 and 7 change no state in any state. -/
def Obligations.NopAndReservedCodesChangeNothing : Prop :=
  decode (.cmd 0) = .ok .nop ∧ decode (.cmd 5) = .ok .reserved5 ∧ decode (.cmd 6) = .ok .reserved6 ∧
  decode (.cmd 7) = .ok .reserved7 ∧
  ∀ s : State, exec .nop s = .next s ∧ exec .reserved5 s = .next s ∧ exec .reserved6 s = .next s ∧
    exec .reserved7 s = .next s

/-- 40_edge_recorder.md R93: CLEAR writes 0 to IDX and nothing else, whatever EN is. -/
def Obligations.ClearResetsOnlyTheIndex : Prop :=
  ∀ s : State, decode (.cmd 1) = .ok .clear ∧ exec .clear s = .next { s with idx := 0 }

/-- 40_edge_recorder.md R94: ARM writes 1 to EN and nothing else; it does not reset the index. -/
def Obligations.ArmSetsOnlyTheEnable : Prop :=
  ∀ s : State, decode (.cmd 2) = .ok .arm ∧ exec .arm s = .next { s with en := true } ∧
    (s.en = true → exec .arm s = .next s)

/-- 40_edge_recorder.md R95 and 20_memory.md R50: DISARM writes 0 to EN and nothing else, and after it LOG and IDX stay as
they are under every sequence of operations without an ARM or a CLEAR. -/
def Obligations.DisarmFreezesTheCapture : Prop :=
  ∀ s : State, decode (.cmd 3) = .ok .disarm ∧ exec .disarm s = .next { s with en := false } ∧
    (s.en = false → exec .disarm s = .next s) ∧
    ∀ ops : List Instr, (.arm ∉ ops ∧ .clear ∉ ops) →
      ∃ t, execAll (.disarm :: ops) s = .next t ∧ t.log = s.log ∧ t.idx = s.idx ∧ t.en = false

/-- 40_edge_recorder.md R96 and 10_state.md R29 b, c: after a CLEAR, event number n of a burst of any length is written at
LOG[n mod 256] and IDX counts the events modulo 256; an entry holds the last event that was written at it. -/
def Obligations.BurstFillsTheRing : Prop :=
  ∀ (ts : List Ts) (s : State), s.en = true →
    ∃ t, execAll (.clear :: edges ts) s = .next t ∧ t.idx.toNat = ts.length % 256 ∧ t.en = true ∧ t.res = s.res ∧
      (∀ (n : Nat) (h : n < ts.length), ts.length ≤ n + 256 → t.logRead (n % 256) = ts[n]) ∧
      (∀ a, ts.length ≤ a → t.logRead a = s.logRead a)

/-- 70_reset_and_hazards.md R216: ARM does not reset IDX, so two bursts with a DISARM and an ARM between them, and any
edges dropped in between, are one burst. -/
def Obligations.ArmWithoutClearJoinsBursts : Prop :=
  ∀ (xs dropped ys : List Ts) (s : State), s.en = true →
    ∃ t, execAll (edges (xs ++ ys)) s = .next t ∧
      execAll (edges xs ++ .disarm :: edges dropped ++ .arm :: edges ys) s = .next t

/-! ## Rules of the whole machine -/

/-- 10_state.md R10 (the table of writers), R29 e: LOG changes only by an EDGE while EN = 1; IDX only by that or by CLEAR; EN
only by ARM or DISARM; RES and the registers internal to DECODE only by DECODE. No operation touches the inputs or the
model's own counters. -/
def Obligations.OnlyTheNamedWritersWrite : Prop :=
  ∀ (i : Instr) (s t : State), exec i s = .next t →
    (t.log ≠ s.log → s.en = true ∧ ∃ u, i = .edge u) ∧
    (t.idx ≠ s.idx → i = .clear ∨ (s.en = true ∧ ∃ u, i = .edge u)) ∧
    (t.en ≠ s.en → i = .arm ∨ i = .disarm) ∧
    ((t.res ≠ s.res ∨ t.dur ≠ s.dur ∨ t.cc ≠ s.cc ∨ t.bitptr ≠ s.bitptr ∨ t.field ≠ s.field) → i = .decode) ∧
    (t.inputs = s.inputs ∧ t.tick = s.tick ∧ t.resets = s.resets)

/-- 93_implementation_defined.md, end of section 1, and 60_exceptions.md R187: every operation completes in every state, but
for DECODE while EN = 1, which is refused by its name; nothing ever faults. -/
def Obligations.OnlyAnArmedDecodeStops : Prop :=
  ∀ (i : Instr) (s : State),
    ((i = .decode ∧ s.en = true) → exec i s = .refused .decodeWhileArmed) ∧
    (¬ (i = .decode ∧ s.en = true) → ∃ t, exec i s = .next t)

/-- 41_session_decode.md R113: DECODE with EN = 1 has no meaning and is refused, under every value of the parameters. -/
def Obligations.ArmedDecodeIsRefused : Prop :=
  ∀ (p : Params) (s : State), s.en = true →
    decodeWith p s = .refused .decodeWhileArmed ∧ exec .decode s = .refused .decodeWhileArmed

/-- 70_reset_and_hazards.md R221: RES keeps the last outcome under every sequence of operations without a DECODE. -/
def Obligations.ResultStaysUntilTheNextDecode : Prop :=
  ∀ (ops : List Instr) (s : State), .decode ∉ ops → ∃ t, execAll ops s = .next t ∧ t.res = s.res

/-! ## DECODE as a whole -/

/-- 41_session_decode.md R110 and 60_exceptions.md R186: the frame of DECODE: LOG (as every entry of it reads), IDX, EN and
the inputs are never written; RES always is: it is None after no DECODE. -/
def Obligations.DecodeLeavesTheCaptureAlone : Prop :=
  ∀ (p : Params) (s : State), s.en = false →
    ∃ t, decodeWith p s = .next t ∧ t.res ≠ .none ∧ t.log = s.log ∧ t.idx = s.idx ∧ t.en = s.en ∧
      (∀ a, t.logRead a = s.logRead a) ∧ t.inputs = s.inputs ∧ t.tick = s.tick ∧ t.resets = s.resets

/-- 41_session_decode.md R110 to R115, stage by stage, as one function: DECODE, with its counter, bit pointer and field
registers, gives the verdict of the reference decoder, under every value of the parameters. -/
def Obligations.DecodeComputesTheReferenceVerdict : Prop :=
  ∀ (p : Params) (s : State), s.en = false →
    ∃ t, decodeWith p s = .next t ∧ t.res = Frame.verdict p s.idx.toNat s.logRead

/-- 41_session_decode.md R114: RES after DECODE is a function of IDX and of LOG[0] to LOG[85] alone. -/
def Obligations.DecodeDependsOnCountAndFirst86Only : Prop :=
  ∀ (p : Params) (s t : State), s.en = false → t.en = false → s.idx = t.idx →
    (∀ i, i < 86 → s.logRead i = t.logRead i) →
    ∃ s' t', decodeWith p s = .next s' ∧ decodeWith p t = .next t' ∧ s'.res = t'.res

/-- 41_session_decode.md R114 (95_test_vectors.md V96): a second DECODE changes nothing at all. -/
def Obligations.RepeatedDecodeChangesNothing : Prop :=
  ∀ s t : State, exec .decode s = .next t → exec .decode t = .next t

/-- 41_session_decode.md R112: code 1 exactly when IDX is not 86, and then no entry of LOG is read: DECODE does the same
whatever the log holds. -/
def Obligations.CountOtherThan86GivesCodeOne : Prop :=
  FailCode.edgeCountMismatch.number = 1 ∧
  ∀ s : State, s.en = false → ∃ t, exec .decode s = .next t ∧ (t.res = .err .edgeCountMismatch ↔ s.idx ≠ 86) ∧
    (s.idx ≠ 86 → ∀ m : Memory, exec .decode { s with log := m } = .next { t with log := m })

/-- 60_exceptions.md R186: raise writes RES and nothing else, and no later stage runs. -/
def Obligations.RaiseWritesTheCodeAndEndsTheDecode : Prop :=
  ∀ (s : State) (c : FailCode) (later : State → Stage),
    s.raise c = { s with res := .err c } ∧ (Stage.raised (s.raise c)).andThen later = Stage.raised (s.raise c)

/-! ## The Duration Converter -/

/-- 42_duration_converter.md R120, at every width: WRAP_K = M. -/
def Obligations.DeltaIsTheWrapSafeDifference : Prop :=
  ∀ (w : Nat) (earlier later : BitVec w),
    (later.toNat < earlier.toNat → (delta (2 ^ w) earlier later).toNat = (2 ^ w - earlier.toNat) + later.toNat) ∧
    (¬ later.toNat < earlier.toNat → (delta (2 ^ w) earlier later).toNat = later.toNat - earlier.toNat)

/-- 42_duration_converter.md R122: one subtraction with the borrow dropped. -/
def Obligations.DeltaIsModularSubtraction : Prop :=
  ∀ (w : Nat) (earlier later : BitVec w), delta (2 ^ w) earlier later = later - earlier

/-- 42_duration_converter.md R125: with WRAP_K = M - 1 the wrapped branch is one microsecond less, the other the same. -/
def Obligations.OtherWrapConstantLosesOneMicrosecond : Prop :=
  ∀ (w : Nat) (earlier later : BitVec w),
    (later.toNat < earlier.toNat →
      (delta (2 ^ w - 1) earlier later).toNat + 1 = (delta (2 ^ w) earlier later).toNat) ∧
    (¬ later.toNat < earlier.toNat → delta (2 ^ w - 1) earlier later = delta (2 ^ w) earlier later)

/-- 42_duration_converter.md R124 a, b, c: two instants of the free-running counter, with any time between them, give that
time modulo M: exactly the time when it is below M, 0 for equal instants. -/
def Obligations.DeltaIsTheElapsedTimeModuloM : Prop :=
  ∀ (w a gap : Nat), (delta (2 ^ w) (BitVec.ofNat w a) (BitVec.ofNat w (a + gap))).toNat = gap % 2 ^ w

/-- 42_duration_converter.md R121: a DECODE that passes its count fills all of DUR from adjacent timestamps, with
WRAP_K = M (log entry 2). -/
def Obligations.ConvertFillsTheDurations : Prop :=
  ∀ s : State, s.Counted → ∃ t, exec .decode s = .next t ∧
    ∀ i : Fin 85, (t.dur.get i).toNat = s.interval i.val

/-- The width of a timestamp does not matter (92_eei_decisions.md D1): instants with gaps below both moduli, taken modulo
either, get the same verdict. -/
def Obligations.VerdictDoesNotDependOnTheWidth : Prop :=
  ∀ (v w : Nat) (mode : CkptMode) (count : Nat) (instants : Nat → Nat), 16 ≤ v → 16 ≤ w →
    (∀ i, i < 85 → instants i ≤ instants (i + 1) ∧ instants (i + 1) < instants i + 2 ^ v ∧
      instants (i + 1) < instants i + 2 ^ w) →
    Frame.verdict ⟨2 ^ v, mode⟩ count (fun i => BitVec.ofNat v (instants i)) =
      Frame.verdict ⟨2 ^ w, mode⟩ count (fun i => BitVec.ofNat w (instants i))

/-! ## The Protocol Validator -/

/-- 43_protocol_validator.md R130: a duration passes a window exactly when it is inside it, both ends included, and the
eight windows are those of the source's table. -/
def Obligations.WindowsAreInclusive : Prop :=
  (∀ (w : Nat) (d : BitVec w) (win : Window), inWindow d win = true ↔ win.lo ≤ d.toNat ∧ d.toNat ≤ win.hi) ∧
  Config.wS1L = ⟨800, 20000⟩ ∧ Config.wS1H = ⟨20, 200⟩ ∧ Config.wS2L = ⟨75, 85⟩ ∧ Config.wS2H = ⟨75, 85⟩ ∧
  Config.wS3L = ⟨48, 69⟩ ∧ Config.wS3H0 = ⟨22, 30⟩ ∧ Config.wS3H1 = ⟨68, 75⟩ ∧ Config.wS4L = ⟨45, 55⟩

/-- 43_protocol_validator.md R133: the first checkpoint: code 2 exactly when one of the first four durations is outside
its window; when it passes the counter is 4. -/
def Obligations.FirstCheckpointIsTheInitialSignal : Prop :=
  (∀ s : State, s.cc = 0 →
    (∃ t, initialCheck s = .pass t ∧ t.cc = 4) ∨
    (∃ t, initialCheck s = .raised t ∧ t.cc.toNat < 4 ∧ t.res = .err .initialSignalInvalid)) ∧
  (∀ s : State, s.Counted →
    ∃ t, exec .decode s = .next t ∧ (t.res = .err .initialSignalInvalid ↔ ¬ s.InitialInWindows))

/-- 43_protocol_validator.md R137, the decided mode (log entry 3): past the first checkpoint, code 3 exactly when one of the 40 pairs or
the terminal duration fails; the counter is at most 45; code 4 is never raised. -/
def Obligations.FinalCheckpointMergesDataAndTerminal : Prop :=
  ∀ s : State, s.Counted → s.InitialInWindows →
    ∃ t, exec .decode s = .next t ∧ t.cc.toNat ≤ 45 ∧ t.res ≠ .err .terminalInvalid ∧
      (t.res = .err .dataOrTerminalInvalid ↔ ¬ ((∀ k < 40, s.PairCompliant k) ∧ s.TerminalInWindow)) ∧
      (t.res = .err .dataOrTerminalInvalid ↔ t.cc.toNat < 45)

/-- 43_protocol_validator.md R138, the other mode: code 3 exactly when a pair fails, code 4 exactly when all pairs pass and
the terminal duration fails. -/
def Obligations.SplitCheckpointsSeparateDataAndTerminal : Prop :=
  ∀ s : State, s.Counted → s.InitialInWindows →
    ∃ t, decodeWith ⟨2 ^ 32, .split⟩ s = .next t ∧
      (t.res = .err .dataOrTerminalInvalid ↔ ¬ ∀ k < 40, s.PairCompliant k) ∧
      (t.res = .err .terminalInvalid ↔ (∀ k < 40, s.PairCompliant k) ∧ ¬ s.TerminalInWindow)

/-- 43_protocol_validator.md R138: the two modes differ in one outcome only, code 3 against code 4 when all pairs pass and
the terminal duration alone fails. -/
def Obligations.ModesDifferOnlyInTheTerminalCode : Prop :=
  ∀ (k : Nat) (s : State), s.en = false →
    ∃ t u, decodeWith ⟨k, .merged⟩ s = .next t ∧ decodeWith ⟨k, .split⟩ s = .next u ∧
      (t.res ≠ u.res → t.res = .err .dataOrTerminalInvalid ∧ u.res = .err .terminalInvalid)

/-- 43_protocol_validator.md R131, R132, R135, R136, R137, R141: past the count, the counter ends as the number of the
initial checks that pass, and, where all four do, of the pairs and of the terminal check too. That the terminal check is
counted after a failed pair holds under MERGED, the decided mode, which has no test between the two (R137; log entry 3). -/
def Obligations.CounterCountsThePassedChecks : Prop :=
  ∀ s : State, s.Counted → ∃ t, exec .decode s = .next t ∧
    (¬ s.InitialInWindows → t.cc.toNat = s.initialChecksPassed ∧ t.cc.toNat < 4) ∧
    (s.InitialInWindows →
      t.cc.toNat = 4 + (List.range 40).countP (fun k => decide (s.PairCompliant k)) +
        (if s.TerminalInWindow then 1 else 0))

/-! ## The Bit Decoder -/

/-- 44_bit_decoder.md R151, 30_encoding.md R63: the symbol code, in numbers. -/
def Obligations.ClassificationIsTheSymbolCode : Prop :=
  ∀ (w : Nat) (lo hi : BitVec w),
    (classify lo hi = .zero ↔ (48 ≤ lo.toNat ∧ lo.toNat ≤ 69) ∧ (22 ≤ hi.toNat ∧ hi.toNat ≤ 30)) ∧
    (classify lo hi = .one ↔ (48 ≤ lo.toNat ∧ lo.toNat ≤ 69) ∧ (68 ≤ hi.toNat ∧ hi.toNat ≤ 75)) ∧
    (classify lo hi = .none ↔ ¬ (48 ≤ lo.toNat ∧ lo.toNat ≤ 69) ∨
      ¬ ((22 ≤ hi.toNat ∧ hi.toNat ≤ 30) ∨ (68 ≤ hi.toNat ∧ hi.toNat ≤ 75)))

/-- 44_bit_decoder.md R152 to R154, R156: pair k decides bit 7 - (k mod 8) of FIELD[k div 8]: 1 for a ONE, 0 for a ZERO and 0
for a pair in neither window, which does not shift the bits after it; the bit pointer ends where the next field starts. -/
def Obligations.FieldsHoldTheirPairs : Prop :=
  ∀ s : State, s.Counted → s.InitialInWindows →
    ∃ t, exec .decode s = .next t ∧ t.bitptr = 7 ∧
      ∀ (k : Nat) (hk : k < 40),
        (t.field.get ⟨k / 8, by omega⟩).getLsbD (7 - k % 8) = decide (s.PairIsOne k)

/-- 43_protocol_validator.md R139: a pair in neither window is not reported by itself, decodes as 0, and is always enough
for code 3, in both modes. -/
def Obligations.SoftFailedPairForcesCodeThree : Prop :=
  ∀ (mode : CkptMode) (s : State) (k : Nat) (hk : k < 40), s.Counted → s.InitialInWindows → ¬ s.PairCompliant k →
    ∃ t, decodeWith ⟨2 ^ 32, mode⟩ s = .next t ∧ t.res = .err .dataOrTerminalInvalid ∧
      (t.field.get ⟨k / 8, by omega⟩).getLsbD (7 - k % 8) = false

/-! ## The Value Assembler -/

/-- 45_value_assembler.md R160: with every timing check passed, code 5 exactly when the parity byte is not the sum of the
four data bytes modulo 256, whatever the range check would say. -/
def Obligations.ParityErrorIsTheChecksum : Prop :=
  ∀ s : State, s.Timed → ∃ t, exec .decode s = .next t ∧
    (t.res = .err .parityError ↔
      t.fieldNat 4 ≠ (t.fieldNat 0 + t.fieldNat 1 + t.fieldNat 2 + t.fieldNat 3) % 256)

/-- 45_value_assembler.md R162, R166 a, g: the raw temperature is two bytes, high first; its top bit is a sign and the rest
a magnitude; setting the top bit negates; negative zero is 0. -/
def Obligations.TemperatureIsSignMagnitude : Prop :=
  (∀ h l : Byte, (joinBytes h l).toNat = 256 * h.toNat + l.toNat) ∧
  (∀ raw : BitVec 16, raw.toNat < 2 ^ 15 → signMagnitude raw = (raw.toNat : Int) ∧
    signMagnitude (raw ||| 0x8000#16) = - signMagnitude raw) ∧
  (∀ raw : BitVec 16, -32767 ≤ signMagnitude raw ∧ signMagnitude raw ≤ 32767)

/-- 45_value_assembler.md R161, R163, R164: with every timing check and the parity passed, DECODE gives code 6 exactly when a
value is out of its range, and otherwise Ok with exactly the two values. -/
def Obligations.RangeErrorOrTheTwoValues : Prop :=
  ∀ s : State, s.Timed → ∃ t, exec .decode s = .next t ∧
    (t.fieldNat 4 = (t.fieldNat 0 + t.fieldNat 1 + t.fieldNat 2 + t.fieldNat 3) % 256 →
      (t.res = .err .rangeError ↔
        256 * t.fieldNat 0 + t.fieldNat 1 > 999 ∨ Frame.temperature (256 * t.fieldNat 2 + t.fieldNat 3) < -400 ∨
          Frame.temperature (256 * t.fieldNat 2 + t.fieldNat 3) > 1250) ∧
      (t.res ≠ .err .rangeError → ∃ hum temp, t.res = .ok hum temp ∧
        hum.toInt = ((256 * t.fieldNat 0 + t.fieldNat 1 : Nat) : Int) ∧
        temp.toInt = Frame.temperature (256 * t.fieldNat 2 + t.fieldNat 3)))

/-- 70_reset_and_hazards.md R225: what Ok means: the count was 86, all 85 durations were in their windows, the checksum holds,
and the two values are in range. -/
def Obligations.OkMeansEveryCheckPassed : Prop :=
  ∀ (s t : State) (hum temp : BitVec 16), exec .decode s = .next t → t.res = .ok hum temp →
    s.Timed ∧ t.fieldNat 4 = (t.fieldNat 0 + t.fieldNat 1 + t.fieldNat 2 + t.fieldNat 3) % 256 ∧
      0 ≤ hum.toInt ∧ hum.toInt ≤ 999 ∧ -400 ≤ temp.toInt ∧ temp.toInt ≤ 1250

/-! ## The ports -/

/-- 30_encoding.md R67: what the result ports show of each shape of RES; where a port carries no meaning it is a free value
(log entry 10), so nothing is said of it but that. -/
def Obligations.OutputPortsShowTheResult : Prop :=
  ∀ s : State, s.outputs.en = BitVec.ofBool s.en ∧ s.outputs.idx = s.idx ∧
    (s.res = .none → s.outputs.resDone = 0) ∧
    (∀ c, s.res = .err c → s.outputs.resDone = 1 ∧ s.outputs.resCode = c.number) ∧
    (∀ h t, s.res = .ok h t →
      s.outputs.resDone = 1 ∧ s.outputs.resCode = 0 ∧ s.outputs.resHum = h ∧ s.outputs.resTemp = t)

/-- 30_encoding.md R66, R68: the numbers of the six failure codes, as the table gives them. A DECODE never shows 7, under
any parameters, and never 4 under MERGED, so one of this hardware never shows 4. That this hardware is MERGED is the spec's
decision, log entry 3. -/
def Obligations.ResultCodesFourAndSevenNeverShow : Prop :=
  (FailCode.edgeCountMismatch.number = 1 ∧ FailCode.initialSignalInvalid.number = 2 ∧
    FailCode.dataOrTerminalInvalid.number = 3 ∧ FailCode.terminalInvalid.number = 4 ∧
    FailCode.parityError.number = 5 ∧ FailCode.rangeError.number = 6) ∧
  (∀ c d : FailCode, c.number = d.number → c = d) ∧
  (∀ (p : Params) (s t : State), decodeWith p s = .next t →
    t.outputs.resDone = 1 ∧ t.outputs.resCode ≠ 7 ∧ (p.ckptMode = .merged → t.outputs.resCode ≠ 4)) ∧
  ∀ s t : State, exec .decode s = .next t → t.outputs.resDone = 1 ∧ t.outputs.resCode ≠ 4 ∧ t.outputs.resCode ≠ 7

/-! ## Invariants -/

/-- The reset state meets the invariant. -/
def Obligations.ResetMeetsTheInvariant : Prop := State.reset.Inv

/-- 10_state.md R29 d, 20_memory.md R46 and 70_reset_and_hazards.md R211: from every state that meets the invariant, every
step keeps it: the log stays canonical, every entry below IDX has been written since reset, and RES stays legal. That
a legal RES is never code 4 rests on MERGED (log entry 3). -/
def Obligations.StepKeepsTheInvariant : Prop :=
  ∀ s t : State, s.Inv → step s = .next t → t.Inv

/-- 70_reset_and_hazards.md R211: in a state that meets the invariant no DECODE reads an entry that has not been written since
reset: its outcome is the same whatever such entries hold. Those are free values of the number of resets and the index (log entry
6), so any other number of resets stands for any other contents. -/
def Obligations.NoDecodeReadsAnUnwrittenEntry : Prop :=
  ∀ s : State, s.Inv → s.en = false →
    ∃ t, exec .decode s = .next t ∧ ∀ r : Nat, exec .decode { s with resets := r } = .next { t with resets := r }

/-- 70_reset_and_hazards.md R215, 90_conflicts.md C3: a capture window with any number of edges: when the number is 86 modulo
256 the verdict is that of its last 86 edges, and otherwise code 1. -/
def Obligations.CaptureWindowDecodesItsLast86Edges : Prop :=
  ∀ (ts : List Ts) (s : State),
    ∃ t, execAll (.clear :: .arm :: edges ts ++ [.disarm, .decode]) s = .next t ∧
      t.idx.toNat = ts.length % 256 ∧ t.en = false ∧
      (ts.length % 256 ≠ 86 → t.res = .err .edgeCountMismatch) ∧
      (ts.length % 256 = 86 →
        t.res = Frame.verdict Config.decided 86 (fun i => ts.getD (ts.length - 86 + i) 0))
end

