-- ==== Sys2Proof/Laws/State.lean ====
section
/-! SUPPORT. What each update of State does to each field, one lemma a pair, and the same for reset. -/

namespace Sys2Proof.Machine.State

variable (s : State)

@[simp] theorem setLog_log (m : Memory) : (s.setLog m).log = m := rfl
@[simp] theorem setLog_idx (m : Memory) : (s.setLog m).idx = s.idx := rfl
@[simp] theorem setLog_en (m : Memory) : (s.setLog m).en = s.en := rfl
@[simp] theorem setLog_res (m : Memory) : (s.setLog m).res = s.res := rfl
@[simp] theorem setLog_dur (m : Memory) : (s.setLog m).dur = s.dur := rfl
@[simp] theorem setLog_cc (m : Memory) : (s.setLog m).cc = s.cc := rfl
@[simp] theorem setLog_bitptr (m : Memory) : (s.setLog m).bitptr = s.bitptr := rfl
@[simp] theorem setLog_field (m : Memory) : (s.setLog m).field = s.field := rfl
@[simp] theorem setLog_inputs (m : Memory) : (s.setLog m).inputs = s.inputs := rfl
@[simp] theorem setLog_tick (m : Memory) : (s.setLog m).tick = s.tick := rfl
@[simp] theorem setLog_resets (m : Memory) : (s.setLog m).resets = s.resets := rfl

@[simp] theorem setIdx_log (v : Byte) : (s.setIdx v).log = s.log := rfl
@[simp] theorem setIdx_idx (v : Byte) : (s.setIdx v).idx = v := rfl
@[simp] theorem setIdx_en (v : Byte) : (s.setIdx v).en = s.en := rfl
@[simp] theorem setIdx_res (v : Byte) : (s.setIdx v).res = s.res := rfl
@[simp] theorem setIdx_dur (v : Byte) : (s.setIdx v).dur = s.dur := rfl
@[simp] theorem setIdx_cc (v : Byte) : (s.setIdx v).cc = s.cc := rfl
@[simp] theorem setIdx_bitptr (v : Byte) : (s.setIdx v).bitptr = s.bitptr := rfl
@[simp] theorem setIdx_field (v : Byte) : (s.setIdx v).field = s.field := rfl
@[simp] theorem setIdx_inputs (v : Byte) : (s.setIdx v).inputs = s.inputs := rfl
@[simp] theorem setIdx_tick (v : Byte) : (s.setIdx v).tick = s.tick := rfl
@[simp] theorem setIdx_resets (v : Byte) : (s.setIdx v).resets = s.resets := rfl

@[simp] theorem setEn_log (b : Bool) : (s.setEn b).log = s.log := rfl
@[simp] theorem setEn_idx (b : Bool) : (s.setEn b).idx = s.idx := rfl
@[simp] theorem setEn_en (b : Bool) : (s.setEn b).en = b := rfl
@[simp] theorem setEn_res (b : Bool) : (s.setEn b).res = s.res := rfl
@[simp] theorem setEn_dur (b : Bool) : (s.setEn b).dur = s.dur := rfl
@[simp] theorem setEn_cc (b : Bool) : (s.setEn b).cc = s.cc := rfl
@[simp] theorem setEn_bitptr (b : Bool) : (s.setEn b).bitptr = s.bitptr := rfl
@[simp] theorem setEn_field (b : Bool) : (s.setEn b).field = s.field := rfl
@[simp] theorem setEn_inputs (b : Bool) : (s.setEn b).inputs = s.inputs := rfl
@[simp] theorem setEn_tick (b : Bool) : (s.setEn b).tick = s.tick := rfl
@[simp] theorem setEn_resets (b : Bool) : (s.setEn b).resets = s.resets := rfl

@[simp] theorem setRes_log (r : Res) : (s.setRes r).log = s.log := rfl
@[simp] theorem setRes_idx (r : Res) : (s.setRes r).idx = s.idx := rfl
@[simp] theorem setRes_en (r : Res) : (s.setRes r).en = s.en := rfl
@[simp] theorem setRes_res (r : Res) : (s.setRes r).res = r := rfl
@[simp] theorem setRes_dur (r : Res) : (s.setRes r).dur = s.dur := rfl
@[simp] theorem setRes_cc (r : Res) : (s.setRes r).cc = s.cc := rfl
@[simp] theorem setRes_bitptr (r : Res) : (s.setRes r).bitptr = s.bitptr := rfl
@[simp] theorem setRes_field (r : Res) : (s.setRes r).field = s.field := rfl
@[simp] theorem setRes_inputs (r : Res) : (s.setRes r).inputs = s.inputs := rfl
@[simp] theorem setRes_tick (r : Res) : (s.setRes r).tick = s.tick := rfl
@[simp] theorem setRes_resets (r : Res) : (s.setRes r).resets = s.resets := rfl

@[simp] theorem setDur_log (d : Vector Ts 85) : (s.setDur d).log = s.log := rfl
@[simp] theorem setDur_idx (d : Vector Ts 85) : (s.setDur d).idx = s.idx := rfl
@[simp] theorem setDur_en (d : Vector Ts 85) : (s.setDur d).en = s.en := rfl
@[simp] theorem setDur_res (d : Vector Ts 85) : (s.setDur d).res = s.res := rfl
@[simp] theorem setDur_dur (d : Vector Ts 85) : (s.setDur d).dur = d := rfl
@[simp] theorem setDur_cc (d : Vector Ts 85) : (s.setDur d).cc = s.cc := rfl
@[simp] theorem setDur_bitptr (d : Vector Ts 85) : (s.setDur d).bitptr = s.bitptr := rfl
@[simp] theorem setDur_field (d : Vector Ts 85) : (s.setDur d).field = s.field := rfl
@[simp] theorem setDur_inputs (d : Vector Ts 85) : (s.setDur d).inputs = s.inputs := rfl
@[simp] theorem setDur_tick (d : Vector Ts 85) : (s.setDur d).tick = s.tick := rfl
@[simp] theorem setDur_resets (d : Vector Ts 85) : (s.setDur d).resets = s.resets := rfl

@[simp] theorem setCc_log (v : Byte) : (s.setCc v).log = s.log := rfl
@[simp] theorem setCc_idx (v : Byte) : (s.setCc v).idx = s.idx := rfl
@[simp] theorem setCc_en (v : Byte) : (s.setCc v).en = s.en := rfl
@[simp] theorem setCc_res (v : Byte) : (s.setCc v).res = s.res := rfl
@[simp] theorem setCc_dur (v : Byte) : (s.setCc v).dur = s.dur := rfl
@[simp] theorem setCc_cc (v : Byte) : (s.setCc v).cc = v := rfl
@[simp] theorem setCc_bitptr (v : Byte) : (s.setCc v).bitptr = s.bitptr := rfl
@[simp] theorem setCc_field (v : Byte) : (s.setCc v).field = s.field := rfl
@[simp] theorem setCc_inputs (v : Byte) : (s.setCc v).inputs = s.inputs := rfl
@[simp] theorem setCc_tick (v : Byte) : (s.setCc v).tick = s.tick := rfl
@[simp] theorem setCc_resets (v : Byte) : (s.setCc v).resets = s.resets := rfl

@[simp] theorem setBitptr_log (v : BitVec 3) : (s.setBitptr v).log = s.log := rfl
@[simp] theorem setBitptr_idx (v : BitVec 3) : (s.setBitptr v).idx = s.idx := rfl
@[simp] theorem setBitptr_en (v : BitVec 3) : (s.setBitptr v).en = s.en := rfl
@[simp] theorem setBitptr_res (v : BitVec 3) : (s.setBitptr v).res = s.res := rfl
@[simp] theorem setBitptr_dur (v : BitVec 3) : (s.setBitptr v).dur = s.dur := rfl
@[simp] theorem setBitptr_cc (v : BitVec 3) : (s.setBitptr v).cc = s.cc := rfl
@[simp] theorem setBitptr_bitptr (v : BitVec 3) : (s.setBitptr v).bitptr = v := rfl
@[simp] theorem setBitptr_field (v : BitVec 3) : (s.setBitptr v).field = s.field := rfl
@[simp] theorem setBitptr_inputs (v : BitVec 3) : (s.setBitptr v).inputs = s.inputs := rfl
@[simp] theorem setBitptr_tick (v : BitVec 3) : (s.setBitptr v).tick = s.tick := rfl
@[simp] theorem setBitptr_resets (v : BitVec 3) : (s.setBitptr v).resets = s.resets := rfl

@[simp] theorem setField_log (v : Vector Byte 5) : (s.setField v).log = s.log := rfl
@[simp] theorem setField_idx (v : Vector Byte 5) : (s.setField v).idx = s.idx := rfl
@[simp] theorem setField_en (v : Vector Byte 5) : (s.setField v).en = s.en := rfl
@[simp] theorem setField_res (v : Vector Byte 5) : (s.setField v).res = s.res := rfl
@[simp] theorem setField_dur (v : Vector Byte 5) : (s.setField v).dur = s.dur := rfl
@[simp] theorem setField_cc (v : Vector Byte 5) : (s.setField v).cc = s.cc := rfl
@[simp] theorem setField_bitptr (v : Vector Byte 5) : (s.setField v).bitptr = s.bitptr := rfl
@[simp] theorem setField_field (v : Vector Byte 5) : (s.setField v).field = v := rfl
@[simp] theorem setField_inputs (v : Vector Byte 5) : (s.setField v).inputs = s.inputs := rfl
@[simp] theorem setField_tick (v : Vector Byte 5) : (s.setField v).tick = s.tick := rfl
@[simp] theorem setField_resets (v : Vector Byte 5) : (s.setField v).resets = s.resets := rfl

@[simp] theorem advance_log (l : List PortSample) : (s.advance l).log = s.log := rfl
@[simp] theorem advance_idx (l : List PortSample) : (s.advance l).idx = s.idx := rfl
@[simp] theorem advance_en (l : List PortSample) : (s.advance l).en = s.en := rfl
@[simp] theorem advance_res (l : List PortSample) : (s.advance l).res = s.res := rfl
@[simp] theorem advance_dur (l : List PortSample) : (s.advance l).dur = s.dur := rfl
@[simp] theorem advance_cc (l : List PortSample) : (s.advance l).cc = s.cc := rfl
@[simp] theorem advance_bitptr (l : List PortSample) : (s.advance l).bitptr = s.bitptr := rfl
@[simp] theorem advance_field (l : List PortSample) : (s.advance l).field = s.field := rfl
@[simp] theorem advance_inputs (l : List PortSample) : (s.advance l).inputs = l := rfl
@[simp] theorem advance_tick (l : List PortSample) : (s.advance l).tick = s.tick + 1 := rfl
@[simp] theorem advance_resets (l : List PortSample) : (s.advance l).resets = s.resets := rfl

@[simp] theorem applyReset_log (l : List PortSample) : (s.applyReset l).log = [] := rfl
@[simp] theorem applyReset_idx (l : List PortSample) : (s.applyReset l).idx = 0 := rfl
@[simp] theorem applyReset_en (l : List PortSample) : (s.applyReset l).en = false := rfl
@[simp] theorem applyReset_res (l : List PortSample) : (s.applyReset l).res = .none := rfl
@[simp] theorem applyReset_dur (l : List PortSample) : (s.applyReset l).dur = Vector.replicate 85 0 := rfl
@[simp] theorem applyReset_cc (l : List PortSample) : (s.applyReset l).cc = 0 := rfl
@[simp] theorem applyReset_bitptr (l : List PortSample) : (s.applyReset l).bitptr = 0 := rfl
@[simp] theorem applyReset_field (l : List PortSample) : (s.applyReset l).field = Vector.replicate 5 0 := rfl
@[simp] theorem applyReset_inputs (l : List PortSample) : (s.applyReset l).inputs = l := rfl
@[simp] theorem applyReset_tick (l : List PortSample) : (s.applyReset l).tick = s.tick + 1 := rfl
@[simp] theorem applyReset_resets (l : List PortSample) : (s.applyReset l).resets = s.resets + 1 := rfl

end Sys2Proof.Machine.State
end

