-- ==== Sys2Proof/Laws/Memory.lean ====
section
/-! SUPPORT. The laws of the memory: read after write, and the canonical form kept by every operation. -/

namespace Sys2Proof.Machine

@[simp] theorem Memory.read?_nil (i : Nat) : Memory.read? [] i = none := rfl

theorem Memory.read?_write_same (m : Memory) (i : Nat) (v : Ts) :
    Memory.read? (Memory.write m i v) i = some v := by
  induction m with
  | nil => simp [Memory.write, Memory.read?]
  | cons e rest ih =>
    obtain ⟨a, u⟩ := e
    simp only [Memory.write]
    split
    · simp [Memory.read?]
    · split
      · simp [Memory.read?]
      · rename_i h
        simp [Memory.read?, Ne.symm h, ih]

theorem Memory.read?_write_other (m : Memory) (i a : Nat) (v : Ts) (h : a ≠ i) :
    Memory.read? (Memory.write m i v) a = Memory.read? m a := by
  induction m with
  | nil => simp [Memory.write, Memory.read?, Ne.symm h]
  | cons e rest ih =>
    obtain ⟨b, u⟩ := e
    simp only [Memory.write]
    split
    · simp [Memory.read?, Ne.symm h]
    · split
      · rename_i hb
        subst hb
        simp [Memory.read?, Ne.symm h]
      · simp [Memory.read?, ih]

/-- A read after a write, at any index. -/
theorem Memory.read?_write (m : Memory) (i a : Nat) (v : Ts) :
    Memory.read? (Memory.write m i v) a = if a = i then some v else Memory.read? m a := by
  split
  · next h => rw [h, Memory.read?_write_same]
  · next h => exact Memory.read?_write_other m i a v h

theorem Memory.wfFrom_write (m : Memory) (lo i : Nat) (v : Ts) (hlo : lo ≤ i) (hi : i < 256)
    (h : Memory.wfFrom lo m = true) : Memory.wfFrom lo (Memory.write m i v) = true := by
  induction m generalizing lo with
  | nil => simp [Memory.write, Memory.wfFrom, hlo, hi]
  | cons e rest ih =>
    obtain ⟨a, u⟩ := e
    simp only [Memory.wfFrom, Bool.and_eq_true, decide_eq_true_eq] at h
    simp only [Memory.write]
    split
    · simp only [Memory.wfFrom, Bool.and_eq_true, decide_eq_true_eq]
      exact ⟨⟨hlo, hi⟩, ⟨by omega, h.1.2⟩, h.2⟩
    · split
      · next hia =>
        subst hia
        simp only [Memory.wfFrom, Bool.and_eq_true, decide_eq_true_eq]
        exact h
      · simp only [Memory.wfFrom, Bool.and_eq_true, decide_eq_true_eq]
        exact ⟨h.1, ih (a + 1) (by omega) h.2⟩

/-- The one write of the machine keeps the canonical form. -/
theorem Memory.wf_write (m : Memory) (i : Byte) (v : Ts) (h : Memory.wf m = true) :
    Memory.wf (Memory.write m i.toNat v) = true :=
  Memory.wfFrom_write m 0 i.toNat v (Nat.zero_le _) i.isLt h

theorem Memory.wf_reset : Memory.wf State.reset.log = true := rfl

/-- A listed index is at or above the start of its canonical list. -/
theorem Memory.read?_eq_none_of_lt (m : Memory) (lo i : Nat) (h : Memory.wfFrom lo m = true) (hi : i < lo) :
    Memory.read? m i = none := by
  induction m generalizing lo with
  | nil => rfl
  | cons e rest ih =>
    obtain ⟨a, u⟩ := e
    simp only [Memory.wfFrom, Bool.and_eq_true, decide_eq_true_eq] at h
    have ha : a ≠ i := by omega
    simp only [Memory.read?, ha, if_false]
    exact ih (a + 1) h.2 (by omega)

/-- Canonical memories that read alike are the same data. -/
theorem Memory.ext_of_wfFrom (m n : Memory) (lo : Nat) (hm : Memory.wfFrom lo m = true) (hn : Memory.wfFrom lo n = true)
    (h : ∀ i, Memory.read? m i = Memory.read? n i) : m = n := by
  induction m generalizing n lo with
  | nil =>
    cases n with
    | nil => rfl
    | cons e rest => have := h e.1; simp [Memory.read?] at this
  | cons e rest ih =>
    obtain ⟨a, u⟩ := e
    simp only [Memory.wfFrom, Bool.and_eq_true, decide_eq_true_eq] at hm
    cases n with
    | nil => have := h a; simp [Memory.read?] at this
    | cons e' rest' =>
      obtain ⟨b, v⟩ := e'
      simp only [Memory.wfFrom, Bool.and_eq_true, decide_eq_true_eq] at hn
      have hab : a = b := by
        rcases Nat.lt_trichotomy a b with hlt | heq | hgt
        · have := h a
          have hb : b ≠ a := by omega
          simp [Memory.read?, hb, Memory.read?_eq_none_of_lt rest' (b + 1) a hn.2 (by omega)] at this
        · exact heq
        · have := h b
          have ha : a ≠ b := by omega
          simp [Memory.read?, ha, Memory.read?_eq_none_of_lt rest (a + 1) b hm.2 (by omega)] at this
      subst hab
      have huv : u = v := by have := h a; simpa [Memory.read?] using this
      subst huv
      have hrest : rest = rest' := by
        refine ih rest' (a + 1) hm.2 hn.2 fun i => ?_
        by_cases hi : a = i
        · subst hi
          rw [Memory.read?_eq_none_of_lt rest (a + 1) a hm.2 (by omega),
            Memory.read?_eq_none_of_lt rest' (a + 1) a hn.2 (by omega)]
        · have := h i
          simpa [Memory.read?, hi] using this
      rw [hrest]

end Sys2Proof.Machine
end

