-- ==== Sys2Proof/Laws/Ops.lean ====
section
/-! SUPPORT. What each shared operation does, said once: the log, the bit of a byte, raise, the counter, checkpoints. -/

namespace Sys2Proof.Machine

/-! ## The log -/

theorem logRead_eq_of_log {s t : State} (hl : t.log = s.log) (hr : t.resets = s.resets) (i : Nat) :
    t.logRead i = s.logRead i := by
  simp [State.logRead, hl, hr]

theorem logRead_of_read? {s : State} {i : Nat} {v : Ts} (h : Memory.read? s.log i = some v) : s.logRead i = v := by
  simp [State.logRead, h]

@[simp] theorem record_idx (s : State) (t : Ts) : (s.record t).idx = s.idx + 1 := rfl
@[simp] theorem record_log (s : State) (t : Ts) : (s.record t).log = Memory.write s.log s.idx.toNat t := rfl
@[simp] theorem record_en (s : State) (t : Ts) : (s.record t).en = s.en := rfl
@[simp] theorem record_res (s : State) (t : Ts) : (s.record t).res = s.res := rfl
@[simp] theorem record_dur (s : State) (t : Ts) : (s.record t).dur = s.dur := rfl
@[simp] theorem record_cc (s : State) (t : Ts) : (s.record t).cc = s.cc := rfl
@[simp] theorem record_bitptr (s : State) (t : Ts) : (s.record t).bitptr = s.bitptr := rfl
@[simp] theorem record_field (s : State) (t : Ts) : (s.record t).field = s.field := rfl
@[simp] theorem record_inputs (s : State) (t : Ts) : (s.record t).inputs = s.inputs := rfl
@[simp] theorem record_tick (s : State) (t : Ts) : (s.record t).tick = s.tick := rfl
@[simp] theorem record_resets (s : State) (t : Ts) : (s.record t).resets = s.resets := rfl

theorem record_logRead (s : State) (t : Ts) (a : Nat) :
    (s.record t).logRead a = if a = s.idx.toNat then t else s.logRead a := by
  simp only [State.logRead, record_log, record_resets, Memory.read?_write]
  by_cases h : a = s.idx.toNat <;> simp [h]

/-! ## Bits of a byte -/

theorem withBit_getLsbD (v : Byte) (i : BitVec 3) (b : Bool) (n : Nat) (hn : n < 8) :
    (withBit v i b).getLsbD n = if n = i.toNat then b else v.getLsbD n := by
  have h1 : (1#8 <<< i.toNat).getLsbD n = decide (n = i.toNat) := by
    simp only [BitVec.getLsbD_shiftLeft, BitVec.getLsbD_one, hn]
    by_cases h : n = i.toNat
    · simp [h]
    · simp only [decide_true, Bool.true_and, h, decide_false, Bool.and_eq_false_imp]
      intro h2
      simp only [Bool.not_eq_true', decide_eq_false_iff_not] at h2 ⊢
      simp; omega
  unfold withBit
  cases b
  · simp only [Bool.false_eq_true, if_false, BitVec.getLsbD_and, BitVec.getLsbD_not, hn, h1]
    by_cases h : n = i.toNat <;> simp [h]
  · simp only [if_true, BitVec.getLsbD_or, h1]
    by_cases h : n = i.toNat <;> simp [h]

/-! ## raise -/

@[simp] theorem raise_res (s : State) (c : FailCode) : (s.raise c).res = .err c := rfl
@[simp] theorem raise_log (s : State) (c : FailCode) : (s.raise c).log = s.log := rfl
@[simp] theorem raise_idx (s : State) (c : FailCode) : (s.raise c).idx = s.idx := rfl
@[simp] theorem raise_en (s : State) (c : FailCode) : (s.raise c).en = s.en := rfl
@[simp] theorem raise_dur (s : State) (c : FailCode) : (s.raise c).dur = s.dur := rfl
@[simp] theorem raise_cc (s : State) (c : FailCode) : (s.raise c).cc = s.cc := rfl
@[simp] theorem raise_bitptr (s : State) (c : FailCode) : (s.raise c).bitptr = s.bitptr := rfl
@[simp] theorem raise_field (s : State) (c : FailCode) : (s.raise c).field = s.field := rfl
@[simp] theorem raise_inputs (s : State) (c : FailCode) : (s.raise c).inputs = s.inputs := rfl
@[simp] theorem raise_tick (s : State) (c : FailCode) : (s.raise c).tick = s.tick := rfl
@[simp] theorem raise_resets (s : State) (c : FailCode) : (s.raise c).resets = s.resets := rfl

/-! ## Stages -/

@[simp] theorem andThen_pass (s : State) (f : State → Stage) : (Stage.pass s).andThen f = f s := rfl
@[simp] theorem andThen_raised (s : State) (f : State → Stage) : (Stage.raised s).andThen f = .raised s := rfl
@[simp] theorem final_pass (s : State) : (Stage.pass s).final = s := rfl
@[simp] theorem final_raised (s : State) : (Stage.raised s).final = s := rfl

/-- A checkpoint passes or raises its code, and does nothing else. -/
theorem checkpoint_cases (n : Nat) (c : FailCode) (s : State) :
    (s.cc.toNat < n ∧ checkpoint n c s = .raised (s.raise c)) ∨ (n ≤ s.cc.toNat ∧ checkpoint n c s = .pass s) := by
  unfold checkpoint
  split
  · next h => exact .inl ⟨h, rfl⟩
  · next h => exact .inr ⟨Nat.le_of_not_lt h, rfl⟩

/-! ## The counter -/

theorem countIf_eq (s : State) (b : Bool) : s.countIf b = s.setCc (s.cc + if b then 1 else 0) := by
  cases b <;> simp [State.countIf, State.setCc]

/-! ## What an operation keeps: the part of the state that no stage of DECODE writes -/

/-- `t` agrees with `s` on everything but RES and the registers internal to DECODE. -/
structure SameCapture (s t : State) : Prop where
  log : t.log = s.log
  idx : t.idx = s.idx
  en : t.en = s.en
  inputs : t.inputs = s.inputs
  tick : t.tick = s.tick
  resets : t.resets = s.resets

theorem SameCapture.refl (s : State) : SameCapture s s := ⟨rfl, rfl, rfl, rfl, rfl, rfl⟩

theorem SameCapture.trans {s t u : State} (h1 : SameCapture s t) (h2 : SameCapture t u) : SameCapture s u :=
  ⟨h2.log.trans h1.log, h2.idx.trans h1.idx, h2.en.trans h1.en, h2.inputs.trans h1.inputs, h2.tick.trans h1.tick,
    h2.resets.trans h1.resets⟩

theorem setCc_capture (s : State) (v : Byte) : SameCapture s (s.setCc v) := ⟨rfl, rfl, rfl, rfl, rfl, rfl⟩
theorem setDur_capture (s : State) (d : Vector Ts 85) : SameCapture s (s.setDur d) := ⟨rfl, rfl, rfl, rfl, rfl, rfl⟩
theorem setField_capture (s : State) (v : Vector Byte 5) : SameCapture s (s.setField v) := ⟨rfl, rfl, rfl, rfl, rfl, rfl⟩
theorem setBitptr_capture (s : State) (v : BitVec 3) : SameCapture s (s.setBitptr v) := ⟨rfl, rfl, rfl, rfl, rfl, rfl⟩
theorem setRes_capture (s : State) (r : Res) : SameCapture s (s.setRes r) := ⟨rfl, rfl, rfl, rfl, rfl, rfl⟩

theorem SameCapture.logRead {s t : State} (h : SameCapture s t) (i : Nat) : t.logRead i = s.logRead i :=
  logRead_eq_of_log h.log h.resets i

/-- Two states with the same fields are the same. -/
theorem State.same {s t : State} (hc : SameCapture s t) (res : t.res = s.res) (dur : t.dur = s.dur) (cc : t.cc = s.cc)
    (bitptr : t.bitptr = s.bitptr) (field : t.field = s.field) : t = s := by
  obtain ⟨⟩ := s
  obtain ⟨⟩ := t
  obtain ⟨h1, h2, h3, h4, h5, h6⟩ := hc
  simp only at h1 h2 h3 h4 h5 h6 res dur cc bitptr field
  simp only [h1, h2, h3, h4, h5, h6, res, dur, cc, bitptr, field]

end Sys2Proof.Machine
end

