-- ==== Sys2Proof/Laws/DataSection.lean ====
section
/-! SUPPORT. What the data section does: one lemma a field of State for a pair, for a field, and for all forty pairs. -/

namespace Sys2Proof.Machine

/-- The symbol of pair `k` in `s`. -/
def State.symbolAt (s : State) (k : Fin 40) : Symbol := classify (s.pairLow k) (s.pairHigh k)

/-- What a symbol makes of the bit at position `i` of a byte. -/
def symbolByte (v : Byte) (i : BitVec 3) : Symbol → Byte
  | .zero => withBit v i false
  | .one => withBit v i true
  | .none => v

/-- Whether a symbol is counted as compliant (43_protocol_validator.md R134). -/
def Symbol.counted : Symbol → Bool
  | .zero => true
  | .one => true
  | .none => false

theorem classify_counted {w : Nat} (lo hi : BitVec w) : (classify lo hi).counted = compliant lo hi := by
  unfold classify compliant
  cases inWindow lo Config.wS3L <;> cases inWindow hi Config.wS3H0 <;> cases inWindow hi Config.wS3H1 <;> rfl

theorem symbolByte_getLsbD (v : Byte) (i : BitVec 3) (sym : Symbol) (n : Nat) (hn : n < 8) :
    (symbolByte v i sym).getLsbD n =
      if n = i.toNat ∧ sym ≠ .none then decide (sym = .one) else v.getLsbD n := by
  cases sym <;> simp [symbolByte, withBit_getLsbD v i _ n hn]

theorem symbolAt_of_dur {s t : State} (h : t.dur = s.dur) (k : Fin 40) : t.symbolAt k = s.symbolAt k := by
  simp [State.symbolAt, State.pairLow, State.pairHigh, State.durRead, h]

@[simp] theorem setBitptr_symbolAt (s : State) (v : BitVec 3) (k : Fin 40) : (s.setBitptr v).symbolAt k = s.symbolAt k :=
  rfl

@[simp] theorem setField_symbolAt (s : State) (v : Vector Byte 5) (k : Fin 40) :
    (s.setField v).symbolAt k = s.symbolAt k := rfl

/-! ## One pair -/

@[simp] theorem pairStep_field (f : Fin 5) (j : Fin 8) (s : State) :
    (pairStep f j s).field =
      s.field.set f.val (symbolByte (s.field.get f) s.bitptr (s.symbolAt (pairNumber f j))) f.isLt := by
  unfold pairStep State.symbolAt applySymbol
  cases classify (s.pairLow (pairNumber f j)) (s.pairHigh (pairNumber f j)) <;>
    simp [symbolByte, State.writeFieldBit, countIf_eq, Vector.get_eq_getElem]

@[simp] theorem pairStep_cc (f : Fin 5) (j : Fin 8) (s : State) :
    (pairStep f j s).cc = s.cc + if (s.symbolAt (pairNumber f j)).counted then 1 else 0 := by
  unfold pairStep State.symbolAt applySymbol
  cases classify (s.pairLow (pairNumber f j)) (s.pairHigh (pairNumber f j)) <;>
    simp [Symbol.counted, State.writeFieldBit, countIf_eq]

@[simp] theorem pairStep_bitptr (f : Fin 5) (j : Fin 8) (s : State) : (pairStep f j s).bitptr = s.bitptr - 1 := by
  unfold pairStep applySymbol
  cases classify (s.pairLow (pairNumber f j)) (s.pairHigh (pairNumber f j)) <;>
    simp [State.writeFieldBit, countIf_eq]

@[simp] theorem pairStep_dur (f : Fin 5) (j : Fin 8) (s : State) : (pairStep f j s).dur = s.dur := by
  unfold pairStep applySymbol
  cases classify (s.pairLow (pairNumber f j)) (s.pairHigh (pairNumber f j)) <;>
    simp [State.writeFieldBit, countIf_eq]

theorem pairStep_res (f : Fin 5) (j : Fin 8) (s : State) : (pairStep f j s).res = s.res := by
  unfold pairStep applySymbol
  cases classify (s.pairLow (pairNumber f j)) (s.pairHigh (pairNumber f j)) <;>
    simp [State.writeFieldBit, countIf_eq]

theorem pairStep_capture (f : Fin 5) (j : Fin 8) (s : State) : SameCapture s (pairStep f j s) := by
  unfold pairStep applySymbol
  cases classify (s.pairLow (pairNumber f j)) (s.pairHigh (pairNumber f j)) <;>
    constructor <;> simp [State.writeFieldBit, countIf_eq]

@[simp] theorem pairStep_symbolAt (f : Fin 5) (j : Fin 8) (s : State) (k : Fin 40) :
    (pairStep f j s).symbolAt k = s.symbolAt k := symbolAt_of_dur (pairStep_dur f j s) k

/-! ## The pairs of a list -/

/-- A property kept by every pair is kept by a list of pairs. -/
theorem foldl_pairStep_keeps (P : State → Prop) (f : Fin 5) (hP : ∀ j t, P t → P (pairStep f j t)) (l : List (Fin 8))
    (s : State) (h : P s) : P (l.foldl (fun s j => pairStep f j s) s) := by
  induction l generalizing s with
  | nil => exact h
  | cons j l ih => exact ih _ (hP j s h)

theorem foldl_pairStep_cc (f : Fin 5) (l : List (Fin 8)) (s : State) :
    (l.foldl (fun s j => pairStep f j s) s).cc =
      s.cc + BitVec.ofNat 8 (l.countP fun j => (s.symbolAt (pairNumber f j)).counted) := by
  induction l generalizing s with
  | nil => simp
  | cons j l ih =>
    simp only [List.foldl_cons, ih, pairStep_cc, pairStep_symbolAt, List.countP_cons]
    cases (s.symbolAt (pairNumber f j)).counted
    · simp
    · simp [BitVec.ofNat_add, BitVec.add_assoc, BitVec.add_comm 1#8]

/-! ## One field -/

theorem fieldLoop_keeps (P : State → Prop) (f : Fin 5) (h0 : ∀ t, P t → P (t.setBitptr 7))
    (hP : ∀ j t, P t → P (pairStep f j t)) (s : State) (h : P s) : P (fieldLoop f s) :=
  foldl_pairStep_keeps P f hP _ _ (h0 s h)

@[simp] theorem fieldLoop_dur (f : Fin 5) (s : State) : (fieldLoop f s).dur = s.dur :=
  fieldLoop_keeps (fun t => t.dur = s.dur) f (fun _ h => h) (fun j t h => (pairStep_dur f j t).trans h) s rfl

theorem fieldLoop_res (f : Fin 5) (s : State) : (fieldLoop f s).res = s.res :=
  fieldLoop_keeps (fun t => t.res = s.res) f (fun _ h => h) (fun j t h => (pairStep_res f j t).trans h) s rfl

theorem fieldLoop_capture (f : Fin 5) (s : State) : SameCapture s (fieldLoop f s) :=
  fieldLoop_keeps (SameCapture s) f (fun t h => h.trans (setBitptr_capture t 7))
    (fun j t h => h.trans (pairStep_capture f j t)) s (.refl s)

@[simp] theorem fieldLoop_symbolAt (f : Fin 5) (s : State) (k : Fin 40) : (fieldLoop f s).symbolAt k = s.symbolAt k :=
  symbolAt_of_dur (fieldLoop_dur f s) k

/-- The pairs of field `f` that are counted. -/
def State.fieldCount (s : State) (f : Fin 5) : Nat :=
  [0, 1, 2, 3, 4, 5, 6, 7].countP fun j => (s.symbolAt (pairNumber f j)).counted

theorem fieldLoop_cc (f : Fin 5) (s : State) : (fieldLoop f s).cc = s.cc + BitVec.ofNat 8 (s.fieldCount f) :=
  foldl_pairStep_cc f _ _

theorem fieldLoop_bitptr (f : Fin 5) (s : State) : (fieldLoop f s).bitptr = 7 := by
  simp [fieldLoop]

/-- The byte eight symbols make of `v`, first pair at bit 7. -/
def State.fieldByte (s : State) (f : Fin 5) (v : Byte) : Byte :=
  [0, 1, 2, 3, 4, 5, 6, 7].foldl (fun v (j : Fin 8) => symbolByte v (7 - BitVec.ofNat 3 j.val) (s.symbolAt (pairNumber f j))) v

theorem fieldLoop_field (f : Fin 5) (s : State) :
    (fieldLoop f s).field = s.field.set f.val (s.fieldByte f (s.field.get f)) f.isLt := by
  simp [fieldLoop, State.fieldByte, Vector.get_eq_getElem]

/-- Bit `7 - j` of the byte is pair `j`'s bit (44_bit_decoder.md R153): set by ONE, cleared by ZERO, kept by NONE. -/
theorem fieldByte_getLsbD (s : State) (f : Fin 5) (v : Byte) (j : Fin 8) :
    (s.fieldByte f v).getLsbD (7 - j.val) =
      if s.symbolAt (pairNumber f j) ≠ .none then decide (s.symbolAt (pairNumber f j) = .one) else v.getLsbD (7 - j.val) := by
  have hn : 7 - j.val < 8 := by omega
  simp only [State.fieldByte, List.foldl, symbolByte_getLsbD _ _ _ _ hn]
  fin_cases j <;> simp

/-- A byte is its eight bits. -/
theorem byte_ext {u v : Byte} (h : ∀ j : Fin 8, u.getLsbD (7 - j.val) = v.getLsbD (7 - j.val)) : u = v := by
  apply BitVec.eq_of_getLsbD_eq
  intro n hn
  have := h ⟨7 - n, by omega⟩
  simpa [show 7 - (7 - n) = n by omega] using this

/-! ## All forty pairs -/

theorem fieldByte_of_symbols {s t : State} (h : ∀ k, t.symbolAt k = s.symbolAt k) (f : Fin 5) (v : Byte) :
    t.fieldByte f v = s.fieldByte f v := by
  simp [State.fieldByte, h]

theorem fieldCount_of_symbols {s t : State} (h : ∀ k, t.symbolAt k = s.symbolAt k) (f : Fin 5) :
    t.fieldCount f = s.fieldCount f := by
  simp [State.fieldCount, h]

@[simp] theorem setField_fieldByte (s : State) (w : Vector Byte 5) (f : Fin 5) (v : Byte) :
    (s.setField w).fieldByte f v = s.fieldByte f v := fieldByte_of_symbols (setField_symbolAt s w) f v

@[simp] theorem fieldLoop_fieldByte (s : State) (g f : Fin 5) (v : Byte) :
    (fieldLoop g s).fieldByte f v = s.fieldByte f v := fieldByte_of_symbols (fieldLoop_symbolAt g s) f v

@[simp] theorem setField_fieldCount (s : State) (w : Vector Byte 5) (f : Fin 5) :
    (s.setField w).fieldCount f = s.fieldCount f := fieldCount_of_symbols (setField_symbolAt s w) f

@[simp] theorem fieldLoop_fieldCount (s : State) (g f : Fin 5) :
    (fieldLoop g s).fieldCount f = s.fieldCount f := fieldCount_of_symbols (fieldLoop_symbolAt g s) f

/-- The five fields one after the other. -/
theorem dataLoop_eq (s : State) :
    dataLoop s =
      fieldLoop 4 (fieldLoop 3 (fieldLoop 2 (fieldLoop 1 (fieldLoop 0 (s.setField (Vector.replicate 5 0)))))) := by
  simp only [dataLoop, List.foldl]

theorem dataLoop_keeps (P : State → Prop) (h0 : ∀ t v, P t → P (t.setField v)) (hP : ∀ f t, P t → P (fieldLoop f t))
    (s : State) (h : P s) : P (dataLoop s) :=
  dataLoop_eq s ▸ hP 4 _ (hP 3 _ (hP 2 _ (hP 1 _ (hP 0 _ (h0 s _ h)))))

@[simp] theorem dataLoop_dur (s : State) : (dataLoop s).dur = s.dur :=
  dataLoop_keeps (fun t => t.dur = s.dur) (fun _ _ h => h) (fun f t h => (fieldLoop_dur f t).trans h) s rfl

theorem dataLoop_res (s : State) : (dataLoop s).res = s.res :=
  dataLoop_keeps (fun t => t.res = s.res) (fun _ _ h => h) (fun f t h => (fieldLoop_res f t).trans h) s rfl

theorem dataLoop_capture (s : State) : SameCapture s (dataLoop s) :=
  dataLoop_keeps (SameCapture s) (fun _ _ h => h.trans (setField_capture _ _))
    (fun f t h => h.trans (fieldLoop_capture f t)) s (.refl s)

theorem dataLoop_bitptr (s : State) : (dataLoop s).bitptr = 7 := by
  rw [dataLoop_eq, fieldLoop_bitptr]

/-- After the data section FIELD[f] is what its own eight symbols make of 0 (44_bit_decoder.md R150, R152). -/
theorem dataLoop_field (s : State) (f : Fin 5) : (dataLoop s).field.get f = s.fieldByte f 0 := by
  simp only [dataLoop_eq, fieldLoop_field, Vector.get_eq_getElem]
  fin_cases f <;> simp

/-- The pairs that are counted, over the whole data section. -/
def State.pairsCounted (s : State) : Nat := (List.finRange 40).countP fun k => (s.symbolAt k).counted

theorem pairsCounted_eq (s : State) :
    s.pairsCounted = s.fieldCount 0 + s.fieldCount 1 + s.fieldCount 2 + s.fieldCount 3 + s.fieldCount 4 := by
  have h : List.finRange 40 =
      ([0, 1, 2, 3, 4] : List (Fin 5)).flatMap fun f => ([0, 1, 2, 3, 4, 5, 6, 7] : List (Fin 8)).map (pairNumber f) := by
    decide
  rw [State.pairsCounted, h]
  simp only [List.flatMap_cons, List.flatMap_nil, List.countP_append, List.countP_map, List.countP_nil]
  simp only [State.fieldCount, Function.comp_def]
  omega

theorem pairsCounted_le (s : State) : s.pairsCounted ≤ 40 := by
  have := List.countP_le_length (p := fun k => (s.symbolAt k).counted) (l := List.finRange 40)
  simpa [State.pairsCounted] using this

theorem dataLoop_cc (s : State) : (dataLoop s).cc = s.cc + BitVec.ofNat 8 s.pairsCounted := by
  rw [pairsCounted_eq, dataLoop_eq]
  simp only [fieldLoop_cc]
  simp [BitVec.ofNat_add, BitVec.add_assoc]

/-- All forty pairs are counted exactly when none is NONE. -/
theorem pairsCounted_eq_forty (s : State) : s.pairsCounted = 40 ↔ ∀ k, (s.symbolAt k).counted = true := by
  have h : s.pairsCounted = (List.finRange 40).length ↔ _ := List.countP_eq_length
  simpa using h

end Sys2Proof.Machine
end

