-- ==== Sys2Proof/Laws/Encoding.lean ====
section
/-! SUPPORT. The two parts of an event word. -/

namespace Sys2Proof

theorem eventWord_strobe (b : Bool) (t : Ts) : (BitVec.ofBool b ++ t : BitVec 33).getLsbD 32 = b := by
  rw [BitVec.getLsbD_append]; cases b <;> rfl

theorem eventWord_timestamp (b : Bool) (t : Ts) : (BitVec.ofBool b ++ t : BitVec 33).setWidth 32 = t := by
  apply BitVec.eq_of_getLsbD_eq
  intro i hi
  rw [BitVec.getLsbD_setWidth, BitVec.getLsbD_append]
  simp [hi]

end Sys2Proof
end

