-- ==== Sys2Proof/Laws/PerInstr.lean ====
section
/-! SUPPORT. Statements about every instruction as syntax, one lemma a constructor. -/

namespace Sys2Proof.Laws.EncodesToPort

/-- An instruction is well formed, and its encoding is a well-formed word of the port it belongs to: EDGE of the event port,
every other of the command port (30_encoding.md R69, R73). -/
def Statement (i : Instr) : Prop :=
  i.wf = true ∧ (encode i).wf = true ∧
    ((∃ t, i = .edge t) ↔ ∃ bits, encode i = .evt bits)

theorem edge (t : Ts) : Statement (.edge t) := by
  exact ⟨rfl, eventWord_strobe true t, ⟨fun _ => ⟨_, rfl⟩, fun _ => ⟨t, rfl⟩⟩⟩

theorem nop : Statement .nop := by simp [Statement, Instr.wf, encode, PortWord.wf]
theorem clear : Statement .clear := by simp [Statement, Instr.wf, encode, PortWord.wf]
theorem arm : Statement .arm := by simp [Statement, Instr.wf, encode, PortWord.wf]
theorem disarm : Statement .disarm := by simp [Statement, Instr.wf, encode, PortWord.wf]
theorem decode : Statement .decode := by simp [Statement, Instr.wf, encode, PortWord.wf]
theorem reserved5 : Statement .reserved5 := by simp [Statement, Instr.wf, encode, PortWord.wf]
theorem reserved6 : Statement .reserved6 := by simp [Statement, Instr.wf, encode, PortWord.wf]
theorem reserved7 : Statement .reserved7 := by simp [Statement, Instr.wf, encode, PortWord.wf]

end Sys2Proof.Laws.EncodesToPort
end

