-- ==== Sys2Proof/Laws/Pipeline.lean ====
section
/-! SUPPORT. DECODE's stages from end to end: the states between them, what each leaves, and the seven ways a DECODE ends. -/

namespace Sys2Proof.Machine

/-! ## The states between the stages -/

/-- After stage 1. -/
def State.converted (p : Params) (s : State) : State :=
  (s.setCc 0).setDur (Vector.ofFn fun i : Fin 85 => delta p.wrapK (s.logRead i.val) (s.logRead (i.val + 1)))

/-- After the four checks of stage 2. -/
def State.initialed (p : Params) (s : State) : State := initialCounts (s.converted p)

/-- After the forty pairs of stage 3. -/
def State.decoded (p : Params) (s : State) : State := dataLoop (s.initialed p)

/-- After the terminal check of stage 4. -/
def State.terminated (p : Params) (s : State) : State :=
  (s.decoded p).countIf (inWindow ((s.decoded p).durRead 84) Config.wS4L)

/-! ## What they hold -/

/-- How many of the first four checks pass. -/
def State.initialPassed (s : State) : Nat :=
  (inWindow (s.durRead 0) Config.wS1L).toNat + (inWindow (s.durRead 1) Config.wS1H).toNat +
    (inWindow (s.durRead 2) Config.wS2L).toNat + (inWindow (s.durRead 3) Config.wS2H).toNat

theorem countIf_capture (s : State) (b : Bool) : SameCapture s (s.countIf b) := by
  rw [countIf_eq]; exact setCc_capture _ _

@[simp] theorem countIf_dur (s : State) (b : Bool) : (s.countIf b).dur = s.dur := by rw [countIf_eq]; rfl
@[simp] theorem countIf_res (s : State) (b : Bool) : (s.countIf b).res = s.res := by rw [countIf_eq]; rfl
@[simp] theorem countIf_field (s : State) (b : Bool) : (s.countIf b).field = s.field := by rw [countIf_eq]; rfl
@[simp] theorem countIf_bitptr (s : State) (b : Bool) : (s.countIf b).bitptr = s.bitptr := by rw [countIf_eq]; rfl
theorem countIf_cc (s : State) (b : Bool) : (s.countIf b).cc = s.cc + BitVec.ofNat 8 b.toNat := by
  rw [countIf_eq]; cases b <;> rfl
@[simp] theorem countIf_durRead (s : State) (b : Bool) (i : Fin 85) : (s.countIf b).durRead i = s.durRead i := by
  simp [State.durRead]

theorem initialCounts_eq (s : State) : initialCounts s = s.setCc (s.cc + BitVec.ofNat 8 s.initialPassed) := by
  simp only [initialCounts, State.initialPassed, countIf_eq, State.setCc]
  generalize inWindow (s.durRead 0) Config.wS1L = a
  generalize inWindow (s.durRead 1) Config.wS1H = b
  generalize inWindow (s.durRead 2) Config.wS2L = c
  generalize inWindow (s.durRead 3) Config.wS2H = d
  cases a <;> cases b <;> cases c <;> cases d <;> simp [BitVec.add_assoc]

theorem initialPassed_le (s : State) : s.initialPassed ≤ 4 := by
  have h (b : Bool) : b.toNat ≤ 1 := Bool.toNat_le b
  have h0 := h (inWindow (s.durRead 0) Config.wS1L)
  have h1 := h (inWindow (s.durRead 1) Config.wS1H)
  have h2 := h (inWindow (s.durRead 2) Config.wS2L)
  have h3 := h (inWindow (s.durRead 3) Config.wS2H)
  simp only [State.initialPassed]; omega

theorem converted_dur (p : Params) (s : State) (i : Fin 85) :
    (s.converted p).durRead i = delta p.wrapK (s.logRead i.val) (s.logRead (i.val + 1)) := by
  simp [State.converted, State.durRead, Vector.get_eq_getElem]

theorem converted_capture (p : Params) (s : State) : SameCapture s (s.converted p) := by
  rw [State.converted]
  exact (setCc_capture s 0).trans (setDur_capture _ _)

theorem initialed_capture (p : Params) (s : State) : SameCapture s (s.initialed p) := by
  rw [State.initialed, initialCounts_eq]
  exact (converted_capture p s).trans (setCc_capture _ _)

theorem decoded_capture (p : Params) (s : State) : SameCapture s (s.decoded p) := by
  rw [State.decoded]
  exact (initialed_capture p s).trans (dataLoop_capture _)

theorem terminated_capture (p : Params) (s : State) : SameCapture s (s.terminated p) := by
  rw [State.terminated]
  exact (decoded_capture p s).trans (countIf_capture _ _)

@[simp] theorem initialed_dur (p : Params) (s : State) : (s.initialed p).dur = (s.converted p).dur := by
  rw [State.initialed, initialCounts_eq, State.setCc_dur]

@[simp] theorem decoded_dur (p : Params) (s : State) : (s.decoded p).dur = (s.converted p).dur := by
  simp [State.decoded]

@[simp] theorem terminated_dur (p : Params) (s : State) : (s.terminated p).dur = (s.converted p).dur := by
  simp [State.terminated]

theorem durRead_of_dur {s t : State} (h : t.dur = s.dur) (i : Fin 85) : t.durRead i = s.durRead i := by
  simp only [State.durRead, h]

theorem initialPassed_of_dur {s t : State} (h : t.dur = s.dur) : t.initialPassed = s.initialPassed := by
  simp only [State.initialPassed, durRead_of_dur h]

theorem pairsCounted_of_dur {s t : State} (h : t.dur = s.dur) : t.pairsCounted = s.pairsCounted := by
  simp only [State.pairsCounted, symbolAt_of_dur h]

theorem initialed_bitptr (p : Params) (s : State) : (s.initialed p).bitptr = s.bitptr := by
  rw [State.initialed, initialCounts_eq, State.setCc_bitptr, State.converted, State.setDur_bitptr, State.setCc_bitptr]

theorem initialed_field (p : Params) (s : State) : (s.initialed p).field = s.field := by
  rw [State.initialed, initialCounts_eq, State.setCc_field, State.converted, State.setDur_field, State.setCc_field]

theorem decoded_bitptr (p : Params) (s : State) : (s.decoded p).bitptr = 7 := by
  rw [State.decoded, dataLoop_bitptr]

theorem terminated_bitptr (p : Params) (s : State) : (s.terminated p).bitptr = 7 := by
  rw [State.terminated, countIf_bitptr, decoded_bitptr]

/-- CC after stage 2: the number of the four checks that pass (43_protocol_validator.md R132). -/
theorem initialed_cc (p : Params) (s : State) : (s.initialed p).cc.toNat = (s.converted p).initialPassed := by
  have := initialPassed_le (s.converted p)
  have h0 : (s.converted p).cc = 0 := by rw [State.converted, State.setDur_cc, State.setCc_cc]
  rw [State.initialed, initialCounts_eq, h0]
  simp; omega

theorem initialed_symbolAt (p : Params) (s : State) (k : Fin 40) :
    (s.initialed p).symbolAt k = (s.converted p).symbolAt k := symbolAt_of_dur (initialed_dur p s) k

theorem initialed_pairsCounted (p : Params) (s : State) :
    (s.initialed p).pairsCounted = (s.converted p).pairsCounted := by
  simp [State.pairsCounted, initialed_symbolAt]

/-- CC after stage 3 (R135). -/
theorem decoded_cc (p : Params) (s : State) :
    (s.decoded p).cc.toNat = (s.converted p).initialPassed + (s.converted p).pairsCounted := by
  have h1 := initialPassed_le (s.converted p)
  have h2 := pairsCounted_le (s.converted p)
  rw [State.decoded, dataLoop_cc, BitVec.toNat_add, initialed_cc, initialed_pairsCounted, BitVec.toNat_ofNat]
  omega

/-- CC after stage 4 (R136). -/
theorem terminated_cc (p : Params) (s : State) :
    (s.terminated p).cc.toNat = (s.converted p).initialPassed + (s.converted p).pairsCounted +
      (inWindow ((s.converted p).durRead 84) Config.wS4L).toNat := by
  have h1 := initialPassed_le (s.converted p)
  have h2 := pairsCounted_le (s.converted p)
  have h3 := Bool.toNat_le (inWindow ((s.converted p).durRead 84) Config.wS4L)
  have hd : (s.decoded p).durRead 84 = (s.converted p).durRead 84 := by simp [State.durRead]
  rw [State.terminated, countIf_cc, BitVec.toNat_add, decoded_cc, BitVec.toNat_ofNat, hd]
  omega

@[simp] theorem terminated_field (p : Params) (s : State) : (s.terminated p).field = (s.decoded p).field := by
  simp [State.terminated]

theorem decoded_field (p : Params) (s : State) (f : Fin 5) :
    (s.decoded p).field.get f = (s.converted p).fieldByte f 0 := by
  rw [State.decoded, dataLoop_field]
  exact fieldByte_of_symbols (initialed_symbolAt p s) f 0

/-! ## The ways a DECODE ends -/

/-- The parity holds in the fields of `t` (45_value_assembler.md R160). -/
def State.parityOk (t : State) : Prop := t.par = t.hh + t.hl + t.th + t.tl

/-- Both values are in range in the fields of `t` (R163). -/
def State.rangeOk (t : State) : Prop :=
  (joinBytes t.hh t.hl).toNat ≤ 999 ∧ -400 ≤ signMagnitude (joinBytes t.th t.tl) ∧
    signMagnitude (joinBytes t.th t.tl) ≤ 1250

theorem countCheck_raises (s : State) (h : s.idx ≠ 86) : countCheck s = .raised (s.raise .edgeCountMismatch) := if_pos h

theorem countCheck_passes (s : State) (h : s.idx = 86) : countCheck s = .pass s := if_neg (not_not_intro h)

theorem checkpoint_raises (n : Nat) (c : FailCode) (s : State) (h : s.cc.toNat < n) :
    checkpoint n c s = .raised (s.raise c) := if_pos h

theorem checkpoint_passes (n : Nat) (c : FailCode) (s : State) (h : ¬ s.cc.toNat < n) :
    checkpoint n c s = .pass s := if_neg h

theorem decodeStages_count (p : Params) (s : State) (h : s.idx ≠ 86) :
    decodeStages p s = .raised ((s.setCc 0).raise .edgeCountMismatch) := by
  simp only [decodeStages, countCheck_raises (s.setCc 0) h, andThen_raised]

theorem convert_setCc (p : Params) (s : State) : convert p (s.setCc 0) = .pass (s.converted p) := by
  have h : ∀ i, (s.setCc 0).logRead i = s.logRead i := fun _ => rfl
  simp only [convert, State.converted, h]

/-- Past stage 0, DECODE is stages 2 to 6 on the converted state. -/
theorem decodeStages_counted (p : Params) (s : State) (h : s.idx = 86) :
    decodeStages p s =
      ((((initialCheck (s.converted p)).andThen (dataSection p)).andThen (terminalCheck p)).andThen parityCheck).andThen
        assembleAndRange := by
  simp only [decodeStages, countCheck_passes (s.setCc 0) h, andThen_pass, convert_setCc]

theorem decodeStages_initial (p : Params) (s : State) (h : s.idx = 86) (hi : (s.converted p).initialPassed < 4) :
    decodeStages p s = .raised ((s.initialed p).raise .initialSignalInvalid) := by
  have hc : (s.initialed p).cc.toNat < 4 := by rw [initialed_cc]; exact hi
  have hk : initialCheck (s.converted p) = _ := checkpoint_raises 4 .initialSignalInvalid (s.initialed p) hc
  simp only [decodeStages_counted p s h, hk, andThen_raised]

/-- Past the first checkpoint, DECODE is stages 3 to 6. -/
theorem decodeStages_begun (p : Params) (s : State) (h : s.idx = 86) (hi : (s.converted p).initialPassed = 4) :
    decodeStages p s =
      (((dataCheckpoint p (s.decoded p)).andThen (terminalCheck p)).andThen parityCheck).andThen assembleAndRange := by
  have hc : ¬ (s.initialed p).cc.toNat < 4 := by rw [initialed_cc]; omega
  have hk : initialCheck (s.converted p) = _ := checkpoint_passes 4 .initialSignalInvalid (s.initialed p) hc
  simp only [decodeStages_counted p s h, hk, andThen_pass, dataSection, State.decoded]

theorem decodeStages_splitData (p : Params) (s : State) (h : s.idx = 86) (hi : (s.converted p).initialPassed = 4)
    (hm : p.ckptMode = .split) (hd : (s.converted p).pairsCounted < 40) :
    decodeStages p s = .raised ((s.decoded p).raise .dataOrTerminalInvalid) := by
  have hc : (s.decoded p).cc.toNat < 44 := by rw [decoded_cc]; omega
  simp only [decodeStages_begun p s h hi, dataCheckpoint, hm, checkpoint_raises 44 _ _ hc, andThen_raised]

/-- Past the checkpoint of the data section, where there is one, DECODE is stages 4 to 6. -/
theorem decodeStages_data (p : Params) (s : State) (h : s.idx = 86) (hi : (s.converted p).initialPassed = 4)
    (hd : p.ckptMode = .merged ∨ (s.converted p).pairsCounted = 40) :
    decodeStages p s =
      ((checkpoint 45 (finalCode p.ckptMode) (s.terminated p)).andThen parityCheck).andThen assembleAndRange := by
  rw [decodeStages_begun p s h hi]
  cases hm : p.ckptMode with
  | merged => simp only [dataCheckpoint, hm, andThen_pass, terminalCheck, State.terminated]
  | split =>
    have hc : ¬ (s.decoded p).cc.toNat < 44 := by
      rw [decoded_cc]; rcases hd with hd | hd
      · simp [hm] at hd
      · omega
    simp only [dataCheckpoint, hm, checkpoint_passes 44 _ _ hc, andThen_pass, terminalCheck, State.terminated]

theorem decodeStages_terminal (p : Params) (s : State) (h : s.idx = 86) (hi : (s.converted p).initialPassed = 4)
    (hd : p.ckptMode = .merged ∨ (s.converted p).pairsCounted = 40)
    (ht : (s.converted p).pairsCounted < 40 ∨ inWindow ((s.converted p).durRead 84) Config.wS4L = false) :
    decodeStages p s = .raised ((s.terminated p).raise (finalCode p.ckptMode)) := by
  have h2 := pairsCounted_le (s.converted p)
  have hc : (s.terminated p).cc.toNat < 45 := by
    rw [terminated_cc, hi]
    rcases ht with ht | ht
    · have := Bool.toNat_le (inWindow ((s.converted p).durRead 84) Config.wS4L); omega
    · rw [ht]; simp; omega
  simp only [decodeStages_data p s h hi hd, checkpoint_raises 45 _ _ hc, andThen_raised]

/-- Past every timing check, DECODE is stages 5 and 6. -/
theorem decodeStages_timed (p : Params) (s : State) (h : s.idx = 86) (hi : (s.converted p).initialPassed = 4)
    (hd : (s.converted p).pairsCounted = 40) (ht : inWindow ((s.converted p).durRead 84) Config.wS4L = true) :
    decodeStages p s = (parityCheck (s.terminated p)).andThen assembleAndRange := by
  have hc : ¬ (s.terminated p).cc.toNat < 45 := by rw [terminated_cc, hi, hd, ht]; decide
  simp only [decodeStages_data p s h hi (.inr hd), checkpoint_passes 45 _ _ hc, andThen_pass]

theorem parityCheck_raises (t : State) (h : ¬ t.parityOk) : parityCheck t = .raised (t.raise .parityError) := if_neg h

theorem parityCheck_passes (t : State) (h : t.parityOk) : parityCheck t = .pass t := if_pos h

theorem assembleAndRange_raises (t : State) (h : ¬ t.rangeOk) : assembleAndRange t = .raised (t.raise .rangeError) := by
  refine if_pos ?_
  simp only [State.rangeOk, Config.humMax, Config.tempMin, Config.tempMax] at h ⊢
  omega

theorem assembleAndRange_passes (t : State) (h : t.rangeOk) :
    assembleAndRange t =
      .pass (t.setRes (.ok (joinBytes t.hh t.hl) (BitVec.ofInt 16 (signMagnitude (joinBytes t.th t.tl))))) := by
  refine if_neg ?_
  simp only [State.rangeOk, Config.humMax, Config.tempMin, Config.tempMax] at h ⊢
  omega

/-- Every way a DECODE can end, with the state it ends in. -/
theorem decodeStages_cases (p : Params) (s : State) :
    (s.idx ≠ 86 ∧ decodeStages p s = .raised ((s.setCc 0).raise .edgeCountMismatch)) ∨
    (s.idx = 86 ∧ (s.converted p).initialPassed < 4 ∧
      decodeStages p s = .raised ((s.initialed p).raise .initialSignalInvalid)) ∨
    (s.idx = 86 ∧ (s.converted p).initialPassed = 4 ∧ p.ckptMode = .split ∧ (s.converted p).pairsCounted < 40 ∧
      decodeStages p s = .raised ((s.decoded p).raise .dataOrTerminalInvalid)) ∨
    (s.idx = 86 ∧ (s.converted p).initialPassed = 4 ∧
      (p.ckptMode = .merged ∨ (s.converted p).pairsCounted = 40) ∧
      ((s.converted p).pairsCounted < 40 ∨ inWindow ((s.converted p).durRead 84) Config.wS4L = false) ∧
      decodeStages p s = .raised ((s.terminated p).raise (finalCode p.ckptMode))) ∨
    (s.idx = 86 ∧ (s.converted p).initialPassed = 4 ∧ (s.converted p).pairsCounted = 40 ∧
      inWindow ((s.converted p).durRead 84) Config.wS4L = true ∧
      ((¬ (s.terminated p).parityOk ∧ decodeStages p s = .raised ((s.terminated p).raise .parityError)) ∨
       ((s.terminated p).parityOk ∧ ¬ (s.terminated p).rangeOk ∧
          decodeStages p s = .raised ((s.terminated p).raise .rangeError)) ∨
       ((s.terminated p).parityOk ∧ (s.terminated p).rangeOk ∧
          decodeStages p s = .pass ((s.terminated p).setRes
            (.ok (joinBytes (s.terminated p).hh (s.terminated p).hl)
              (BitVec.ofInt 16 (signMagnitude (joinBytes (s.terminated p).th (s.terminated p).tl)))))))) := by
  by_cases h : s.idx = 86
  swap
  · exact .inl ⟨h, decodeStages_count p s h⟩
  refine .inr ?_
  have h4 := initialPassed_le (s.converted p)
  have h40 := pairsCounted_le (s.converted p)
  by_cases hi : (s.converted p).initialPassed < 4
  · exact .inl ⟨h, hi, decodeStages_initial p s h hi⟩
  have hi : (s.converted p).initialPassed = 4 := by omega
  refine .inr ?_
  by_cases hs : p.ckptMode = .split ∧ (s.converted p).pairsCounted < 40
  · exact .inl ⟨h, hi, hs.1, hs.2, decodeStages_splitData p s h hi hs.1 hs.2⟩
  have hd : p.ckptMode = .merged ∨ (s.converted p).pairsCounted = 40 := by
    cases hm : p.ckptMode with
    | merged => exact .inl rfl
    | split => exact .inr (by have : ¬ (s.converted p).pairsCounted < 40 := fun hlt => hs ⟨hm, hlt⟩; omega)
  refine .inr ?_
  by_cases ht : (s.converted p).pairsCounted < 40 ∨ inWindow ((s.converted p).durRead 84) Config.wS4L = false
  · exact .inl ⟨h, hi, hd, ht, decodeStages_terminal p s h hi hd ht⟩
  rw [not_or, Bool.not_eq_false] at ht
  have hd : (s.converted p).pairsCounted = 40 := by omega
  have timed := decodeStages_timed p s h hi hd ht.2
  refine .inr ⟨h, hi, hd, ht.2, ?_⟩
  by_cases hp : (s.terminated p).parityOk
  swap
  · exact .inl ⟨hp, by rw [timed, parityCheck_raises _ hp]; rfl⟩
  rw [parityCheck_passes _ hp, andThen_pass] at timed
  by_cases hr : (s.terminated p).rangeOk
  · exact .inr (.inr ⟨hp, hr, by rw [timed, assembleAndRange_passes _ hr]⟩)
  · exact .inr (.inl ⟨hp, hr, by rw [timed, assembleAndRange_raises _ hr]⟩)

/-- DECODE leaves LOG, IDX, EN and the inputs as they were (41_session_decode.md R110, 60_exceptions.md R186). -/
theorem decodeStages_capture (p : Params) (s : State) : SameCapture s (decodeStages p s).final := by
  have raised {t : State} (c : FailCode) (h : SameCapture s t) : SameCapture s (t.raise c) :=
    h.trans (setRes_capture _ _)
  rcases decodeStages_cases p s with ⟨-, h⟩ | ⟨-, -, h⟩ | ⟨-, -, -, -, h⟩ | ⟨-, -, -, -, h⟩ |
    ⟨-, -, -, -, ⟨-, h⟩ | ⟨-, -, h⟩ | ⟨-, -, h⟩⟩ <;> rw [h]
  · exact raised _ (setCc_capture _ _)
  · exact raised _ (initialed_capture p s)
  · exact raised _ (decoded_capture p s)
  · exact raised _ (terminated_capture p s)
  · exact raised _ (terminated_capture p s)
  · exact raised _ (terminated_capture p s)
  · exact (terminated_capture p s).trans (setRes_capture _ _)

end Sys2Proof.Machine
end

