-- ==== Sys2Proof/Laws/Safety.lean ====
section
/-! SUPPORT. What the count of the initial checks says of the four windows. -/

namespace Sys2Proof.Machine

theorem initialChecksPassed_le (s : State) : s.initialChecksPassed ≤ 4 := by
  unfold State.initialChecksPassed
  split <;> split <;> split <;> split <;> omega

/-- All four checks pass exactly when the four durations are in their windows (43_protocol_validator.md R133). -/
theorem initialChecksPassed_eq_four (s : State) : s.initialChecksPassed = 4 ↔ s.InitialInWindows := by
  unfold State.initialChecksPassed State.InitialInWindows
  split <;> split <;> split <;> split <;> simp_all

end Sys2Proof.Machine
end

