-- ==== Sys2Proof/Laws/Step.lean ====
section
/-! SUPPORT. What an operation and a step can do, said once. -/

namespace Sys2Proof.Machine

/-! ## Operations -/

theorem exec_edge_armed (t : Ts) (s : State) (h : s.en = true) : exec (.edge t) s = .next (s.record t) := by
  simp [exec, execEdge, h]

theorem exec_edge_disarmed (t : Ts) (s : State) (h : s.en = false) : exec (.edge t) s = .next s := by
  simp [exec, execEdge, h]

theorem exec_decode_armed (s : State) (h : s.en = true) : exec .decode s = .refused .decodeWhileArmed := by
  simp [exec, execDecode, decodeWith, h]

theorem decodeWith_disarmed (p : Params) (s : State) (h : s.en = false) :
    decodeWith p s = .next (decodeStages p s).final := by
  simp [decodeWith, h]

theorem exec_decode_disarmed (s : State) (h : s.en = false) :
    exec .decode s = .next (decodeStages Config.decided s).final := decodeWith_disarmed Config.decided s h

/-- Every outcome of every operation. -/
theorem exec_cases (i : Instr) (s : State) :
    (∃ t, i = .edge t ∧ s.en = true ∧ exec i s = .next (s.record t)) ∨
    (exec i s = .next s) ∨
    (i = .clear ∧ exec i s = .next (s.setIdx 0)) ∨
    (i = .arm ∧ exec i s = .next (s.setEn true)) ∨
    (i = .disarm ∧ exec i s = .next (s.setEn false)) ∨
    (i = .decode ∧ s.en = false ∧ exec i s = .next (decodeStages Config.decided s).final) ∨
    (i = .decode ∧ s.en = true ∧ exec i s = .refused .decodeWhileArmed) := by
  cases i with
  | edge t =>
    cases h : s.en with
    | true => exact .inl ⟨t, rfl, rfl, exec_edge_armed t s h⟩
    | false => exact .inr (.inl (exec_edge_disarmed t s h))
  | nop => exact .inr (.inl rfl)
  | reserved5 => exact .inr (.inl rfl)
  | reserved6 => exact .inr (.inl rfl)
  | reserved7 => exact .inr (.inl rfl)
  | clear => exact .inr (.inr (.inl ⟨rfl, rfl⟩))
  | arm => exact .inr (.inr (.inr (.inl ⟨rfl, rfl⟩)))
  | disarm => exact .inr (.inr (.inr (.inr (.inl ⟨rfl, rfl⟩))))
  | decode =>
    cases h : s.en with
    | true => exact .inr (.inr (.inr (.inr (.inr (.inr ⟨rfl, rfl, exec_decode_armed s h⟩)))))
    | false => exact .inr (.inr (.inr (.inr (.inr (.inl ⟨rfl, rfl, exec_decode_disarmed s h⟩)))))

/-! ## Fetch -/

theorem eventWord_decodes (p : PortSample) (h : p.edgeStb = true) : decode p.eventWord = .ok (.edge p.now) := by
  simp only [PortSample.eventWord, h, decode, eventWord_strobe, eventWord_timestamp, if_true]

/-- A sample's operation, taken, always decodes: the strobe of an event word fetched is set. -/
theorem take_decodes {b : Bool} {p left : PortSample} {w : PortWord} (h : p.take b = some (w, left)) :
    ∃ i, decode w = .ok i := by
  unfold PortSample.take at h
  cases he : p.edgeStb <;> cases hc : p.cmdStb <;> cases b <;> simp only [he, hc] at h <;>
    first
    | exact ⟨_, by simp at h; rw [← h.1]; exact eventWord_decodes p he⟩
    | exact ⟨_, by simp at h; rw [← h.1]; rfl⟩
    | simp at h

/-- What fetch gives is never refused by the decoder. -/
theorem fetch_word_decodes {s : State} {w : PortWord} {left : List PortSample} (h : fetch s = .word w left) :
    ∃ i, decode w = .ok i := by
  unfold fetch at h
  split at h
  · simp at h
  · split at h
    · simp at h
    · split at h
      · simp at h
      · next heq => simp only [Fetch.word.injEq] at h; rw [← h.1]; exact take_decodes heq

/-- Every step: nothing, a reset, or one operation on the state with its input used up. -/
theorem step_cases (s : State) :
    (∃ left, step s = .next (s.advance left)) ∨ (∃ left, step s = .next (s.applyReset left)) ∨
    (∃ w left i, fetch s = .word w left ∧ decode w = .ok i ∧ step s = exec i (s.advance left)) := by
  cases h : fetch s with
  | quiet left => exact .inl ⟨left, by simp [step, h]⟩
  | reset left => exact .inr (.inl ⟨left, by simp [step, h]⟩)
  | word w left =>
    obtain ⟨i, hi⟩ := fetch_word_decodes h
    exact .inr (.inr ⟨w, left, i, rfl, hi, by simp [step, h, hi]⟩)

end Sys2Proof.Machine
end

