-- ==== Sys2Proof/Tests/Slice0.lean ====
section
/-! SUPPORT. Tests: well-formedness, words written out from the spec's encodings, vectors of spec/95_test_vectors.md, and a
witness for the hypotheses of each obligation. -/

namespace Sys2Proof.Machine

/-! ## Well-formedness: an ill-formed term for each check, refused -/

theorem test_wf_refuses_clear_strobe : (PortWord.evt 0x0000004B0#33).wf = false := by decide
theorem test_wf_refuses_zero_in_window : (Window.mk 0 30).wf = false := by decide
theorem test_wf_refuses_empty_window : (Window.mk 31 30).wf = false := by decide
theorem test_wf_refuses_wide_window : (Window.mk 800 32768).wf = false := by decide
theorem test_wf_refuses_narrow_timestamp : Config.widthsWf 15 8 = false := by decide
theorem test_wf_refuses_narrow_counter : Config.widthsWf 32 5 = false := by decide
theorem test_wf_refuses_other_wrap : (Params.mk (2 ^ 32 - 2) .merged).wf 32 = false := by decide
theorem test_wf_accepts_the_spec : Config.windows.all Window.wf = true ∧ Config.widthsWf Config.tsW Config.ccW = true ∧
    Config.decided.wf Config.tsW = true ∧ (Params.mk (2 ^ 32 - 1) .split).wf 32 = true ∧
    (∀ op : BitVec 3, (PortWord.cmd op).wf = true) ∧ (PortWord.evt 0x1000004B0#33).wf = true := by decide
/-- The types of State write the widths of Config out (00_scope.md R4, R5). -/
theorem test_widths_tie : Ts = BitVec Config.tsW ∧ Byte = BitVec Config.ccW ∧ Config.logSize = 2 ^ 8 := ⟨rfl, rfl, rfl⟩

/-! ## Words written out from the encodings (30_encoding.md R70, R71, R73) -/

theorem test_decode_nop : decode (.cmd 0b000#3) = .ok .nop := by decide
theorem test_decode_clear : decode (.cmd 0b001#3) = .ok .clear := by decide
theorem test_decode_arm : decode (.cmd 0b010#3) = .ok .arm := by decide
theorem test_decode_disarm : decode (.cmd 0b011#3) = .ok .disarm := by decide
theorem test_decode_decode : decode (.cmd 0b100#3) = .ok .decode := by decide
theorem test_decode_reserved5 : decode (.cmd 0b101#3) = .ok .reserved5 := by decide
theorem test_decode_reserved6 : decode (.cmd 0b110#3) = .ok .reserved6 := by decide
theorem test_decode_reserved7 : decode (.cmd 0b111#3) = .ok .reserved7 := by decide
/-- t = 1200 = 0b10010110000. -/
theorem test_decode_edge : decode (.evt 0b1_00000000000000000000010010110000#33) = .ok (.edge 1200) := by decide
/-- Bit 31 of the timestamp is not the strobe. -/
theorem test_decode_edge_top : decode (.evt 0b1_10000000000000000000000000000001#33) = .ok (.edge 0x80000001) ∧
    decode (.evt 0b0_10000000000000000000000000000001#33) = .error .strobeClear := by decide
theorem test_encode_edge : encode (.edge 1200) = .evt 0b1_00000000000000000000010010110000#33 := by decide
theorem test_encode_decode : encode .decode = .cmd 0b100#3 := by decide
/-- The byte images and the table's numbers (log entry 11). -/
theorem test_bytes_of_edge : encodeBytes (.edge 0x12345678) = [0x78, 0x56, 0x34, 0x12, 0x01] := by decide
theorem test_bytes_rejected_by_name : decodeBytes [] = .error .noBytes ∧ decodeBytes [0x08] = .error .noFormat ∧
    decodeBytes [0, 0, 0, 0, 2] = .error .tooWide ∧ decodeBytes [0, 0, 0, 0x80] = .error .noFormat := by decide
theorem test_table_words : decodeTableWord 8 4 = some .decode ∧ decodeTableWord 8 7 = some .reserved7 ∧
    decodeTableWord 40 (2 ^ 32 + 5) = some (.edge 5) ∧ decodeTableWord 40 5 = some .reserved5 ∧
    decodeTableWord 8 9 = none := by decide

/-! ## Small states -/

/-- A log of timestamps from entry `i` on, the first `t`, then each later by the next duration. -/
def logFrom (i : Nat) (t : Ts) : List Nat → Memory
  | [] => [(i, t)]
  | d :: ds => (i, t) :: logFrom (i + 1) (t + BitVec.ofNat 32 d) ds

/-- The durations of a byte's eight pairs, most significant bit first. -/
def byteDurs (lo h0 h1 : Nat) (b : Nat) : List Nat :=
  [7, 6, 5, 4, 3, 2, 1, 0].flatMap fun j => [lo, if b.testBit j then h1 else h0]

/-- The 85 durations of a frame with the initial signal `ini`, the five bytes, and the terminal duration `e`. -/
def frameOf (ini : List Nat) (lo h0 h1 e : Nat) (bytes : List Nat) : List Nat :=
  ini ++ bytes.flatMap (byteDurs lo h0 h1) ++ [e]

/-- A disarmed recorder that has captured 86 edges, the first at `t`. -/
def captured (t : Ts) (ds : List Nat) : State := { State.reset with idx := 86, log := logFrom 0 t ds }

/-- The durations of program P1 with another payload. -/
def p1 (bytes : List Nat) : List Nat := frameOf [1000, 30, 80, 80] 50 26 70 50 bytes

/-- Program P1 of 95_test_vectors.md as it stands before its DECODE. -/
def p1State : State := captured 100000 (p1 [0x02, 0x8C, 0x01, 0x5F, 0xEE])

/-- Program P1 with one duration changed. -/
def p1With (i d : Nat) : State := captured 100000 ((p1 [0x02, 0x8C, 0x01, 0x5F, 0xEE]).set i d)

/-- A recorder with the given enable and index, LOG[3] = 8. -/
def recorder (en : Bool) (idx : Byte) : State := { State.reset with en := en, idx := idx, log := [(3, 8)] }

/-- What a test looks at. -/
def after {α : Type} (f : State → α) : Outcome → Option α
  | .next s => some (f s)
  | .fault _ => none
  | .refused _ => none

/-! ## The Edge Recorder (95_test_vectors.md, 2.1) -/

/-- V1, V2. -/
theorem test_edge_armed :
    after (fun s => (s.en, s.idx, s.logRead 3)) (exec (.edge 1200) (recorder true 3)) = some (true, 4, 1200) ∧
    after (fun s => (s.idx, s.logRead 255, s.logRead 3)) (exec (.edge 77) (recorder true 255)) = some (0, 77, 8) := by decide
/-- V4. -/
theorem test_edge_disarmed : exec (.edge 1200) (recorder false 3) = .next (recorder false 3) := rfl
/-- V7, V8. -/
theorem test_nop : exec .nop (recorder true 3) = .next (recorder true 3) := rfl
theorem test_reserved5 : exec .reserved5 (recorder true 3) = .next (recorder true 3) := rfl
theorem test_reserved6 : exec .reserved6 (recorder false 3) = .next (recorder false 3) := rfl
theorem test_reserved7 : exec .reserved7 (recorder true 86) = .next (recorder true 86) := rfl
/-- V9, V10. -/
theorem test_clear : exec .clear (recorder false 86) = .next (recorder false 0) ∧
    exec .clear (recorder true 86) = .next (recorder true 0) := ⟨rfl, rfl⟩
/-- V12, V13, V14. -/
theorem test_arm : exec .arm (recorder false 40) = .next (recorder true 40) ∧
    exec .arm (recorder true 40) = .next (recorder true 40) := ⟨rfl, rfl⟩
/-- V15, V16. -/
theorem test_disarm : exec .disarm (recorder true 86) = .next (recorder false 86) ∧
    exec .disarm (recorder false 86) = .next (recorder false 86) := ⟨rfl, rfl⟩

/-! ## DECODE (95_test_vectors.md, 2.6 to 2.8 and section 3) -/

/-- P1, P2 (across the rollover), the lowest and the highest frame of 2.8. -/
theorem test_decode_valid_frames :
    after State.res (exec .decode p1State) = some (.ok 652 351) ∧
    after State.res (exec .decode
      (captured 0xFFFFF448 (frameOf [1200, 40, 78, 82] 54 24 72 48 [0x01, 0xF4, 0x80, 0x65, 0xDA]))) =
        some (.ok 500 0xFF9B) ∧
    after State.res (exec .decode (captured 0 (frameOf [800, 20, 75, 75] 48 22 68 45 [0, 0, 0, 0, 0]))) = some (.ok 0 0) ∧
    after State.res (exec .decode
      (captured 0 (frameOf [20000, 200, 85, 85] 69 30 75 55 [0x03, 0xE7, 0x04, 0xE2, 0xD0]))) =
        some (.ok 999 1250) := by decide +kernel

/-- V90, V50, V40 with its counter and field, V46, V76, V66. -/
theorem test_decode_failures :
    after State.res (exec .decode { p1State with idx := 85 }) = some (.err .edgeCountMismatch) ∧
    after (fun s => (s.res, s.cc)) (exec .decode (p1With 0 799)) = some (.err .initialSignalInvalid, 3) ∧
    after (fun s => (s.res, s.cc, s.hh)) (exec .decode (p1With 17 40)) = some (.err .dataOrTerminalInvalid, 44, 0) ∧
    after (fun s => (s.res, s.cc)) (exec .decode (p1With 84 60)) = some (.err .dataOrTerminalInvalid, 44) ∧
    after State.res (exec .decode (captured 100000 (p1 [0x02, 0x8C, 0x01, 0x5F, 0xEF]))) = some (.err .parityError) ∧
    after State.res (exec .decode (captured 100000 (p1 [0x03, 0xE8, 0x00, 0x00, 0xEB]))) = some (.err .rangeError) := by
  decide +kernel

/-- The SPLIT column of V40 and V46, and V29 under WRAP_K = M - 1 (R125, R138). -/
theorem test_other_parameters :
    after (fun s => (s.res, s.cc)) (decodeWith ⟨2 ^ 32, .split⟩ (p1With 17 40)) = some (.err .dataOrTerminalInvalid, 43) ∧
    after (fun s => (s.res, s.cc)) (decodeWith ⟨2 ^ 32, .split⟩ (p1With 84 60)) = some (.err .terminalInvalid, 44) ∧
    delta (2 ^ 32) 0xFFFFFFBC#32 0#32 = 68 ∧ delta (2 ^ 32 - 1) 0xFFFFFFBC#32 0#32 = 67 := by decide +kernel

/-- V24, V25, V22, V23, and the 16-bit examples of 2.2. -/
theorem test_delta : delta (2 ^ 32) 0xFFFFFFFF#32 0#32 = 1 ∧ delta (2 ^ 32) 0xFFFFFFF0#32 0x20#32 = 48 ∧
    delta (2 ^ 32) 7#32 7#32 = 0 ∧ delta (2 ^ 32) 0#32 0xFFFFFFFF#32 = 0xFFFFFFFF ∧
    delta (2 ^ 16) 65530#16 20#16 = 26 ∧ delta (2 ^ 16) 40000#16 39999#16 = 65535 := by decide

/-- 2.4: the overlap of two windows, the parts swapped, a high part between the windows. -/
theorem test_classify : classify 68#32 68#32 = .one ∧ classify 26#32 50#32 = .none ∧ classify 50#32 40#32 = .none ∧
    classify 69#32 30#32 = .zero := by decide

/-- V61, V64, V69, V72. -/
theorem test_temperature : signMagnitude 0x815F = -351 ∧ signMagnitude 0x8000 = 0 ∧ signMagnitude 0x8191 = -401 ∧
    signMagnitude 0xFFFF = -32767 ∧ joinBytes 0x02 0x8C = 652 := by decide

/-- The table of 30_encoding.md R66, by the source's names. -/
theorem test_result_codes : FailCode.edgeCountMismatch.number = 0b001 ∧ FailCode.initialSignalInvalid.number = 0b010 ∧
    FailCode.dataOrTerminalInvalid.number = 0b011 ∧ FailCode.terminalInvalid.number = 0b100 ∧
    FailCode.parityError.number = 0b101 ∧ FailCode.rangeError.number = 0b110 := by decide

/-- The ports: a reset, a quiet moment, and a DECODE as the first step after reset. -/
theorem test_step :
    after (fun s => (s.en, s.idx, s.inputs)) (step { recorder true 9 with inputs := [⟨true, true, 5, true, 2⟩] }) =
      some (false, 0, []) ∧
    step { State.reset with inputs := [PortSample.quiet] } = .next { State.reset with tick := 1 } ∧
    after State.res (step (State.reset.withFetchWord 8 4)) = some (.err .edgeCountMismatch) ∧
    after (fun s => s.outputs.resCode) (step (State.reset.withFetchWord 8 4)) = some 1 := ⟨by decide, rfl, rfl, rfl⟩

/-! ## Witnesses: a concrete state and operands that meet the hypotheses of each obligation together -/

/-- A state whose next sample is `p`, armed, with entries of LOG below IDX written. -/
def waiting (p : PortSample) : State := { State.reset with en := true, inputs := [p, PortSample.quiet] }

theorem witness_PortWordsRoundTrip : decode (.evt 0x1FFFFFFFF#33) = .ok (.edge 0xFFFFFFFF) := by decide
theorem witness_ByteImagesRoundTrip : (Instr.edge 0xFFFFFFFF).wf = true ∧
    decodeBytes [0xFF, 0xFF, 0xFF, 0xFF, 0x01] = .ok (.edge 0xFFFFFFFF) ∧ decodeBytes [0x03, 0x00] = .ok .disarm := by decide
theorem witness_StepRunsTheDecodedOperation :
    fetch (waiting ⟨false, true, 1200, false, 0⟩) = .word (.evt 0x1000004B0#33) [PortSample.quiet] ∧
    decode (.evt 0x1000004B0#33) = .ok (.edge 1200) := by decide
/-- One sample for each clause: an edge, a command, neither. -/
theorem witness_PortsReachTheirOperation :
    (∃ p, (waiting p).inputs = p :: [PortSample.quiet] ∧ p.rst = false ∧ p.edgeStb = true ∧ p.cmdStb = false) ∧
    (∃ p, (waiting p).inputs = p :: [PortSample.quiet] ∧ p.rst = false ∧ p.edgeStb = false ∧ p.cmdStb = true) ∧
    (∃ p, (waiting p).inputs = p :: [PortSample.quiet] ∧ p.rst = false ∧ p.edgeStb = false ∧ p.cmdStb = false) :=
  ⟨⟨⟨false, true, 7, false, 0⟩, by decide⟩, ⟨⟨false, false, 0, true, 3⟩, by decide⟩, ⟨PortSample.quiet, by decide⟩⟩
theorem witness_CoincidingEdgeAndCommandRunInEitherOrder :
    (waiting ⟨false, true, 10, true, 2⟩).inputs = ⟨false, true, 10, true, 2⟩ :: [PortSample.quiet] ∧
    decode (.cmd 2) = .ok .arm := by decide
theorem witness_TableWordIsTheNextStep : decodeTableWord 40 0x1FFFFFFFF = some (.edge 0xFFFFFFFF) ∧
    decodeTableWord 8 0 = some .nop := by decide
theorem witness_QuietCoreDoesNothing : (recorder true 255).inputs = [] := rfl
theorem witness_ResetAtAnyTimeGivesTheResetState :
    (waiting ⟨true, true, 5, true, 4⟩).inputs = ⟨true, true, 5, true, 4⟩ :: [PortSample.quiet] ∧
    (PortSample.mk true true 5 true 4).rst = true := by decide
/-- Both values of EN; the index at both ends of its range; an address that is not the index. -/
theorem witness_ArmedEdgeRecordsAtTheIndex : (recorder false 0).en = false ∧ (recorder true 255).en = true ∧
    (3 : Nat) ≠ (recorder true 255).idx.toNat := by decide
theorem witness_DisarmedEdgeLeavesNoTrace : (recorder false 86).en = false := rfl
theorem witness_ArmSetsOnlyTheEnable : (recorder true 86).en = true := rfl
theorem witness_DisarmFreezesTheCapture : (recorder false 86).en = false ∧
    (.arm ∉ [Instr.edge 5, .decode, .nop] ∧ .clear ∉ [Instr.edge 5, .decode, .nop]) := by decide
/-- The oldest event that is still held, the newest, and an entry beyond a short burst. -/
theorem witness_BurstFillsTheRing : (recorder true 3).en = true ∧
    (44 < (List.replicate 300 (9 : Ts)).length ∧ (List.replicate 300 (9 : Ts)).length ≤ 44 + 256) ∧
    (299 < (List.replicate 300 (9 : Ts)).length ∧ (List.replicate 300 (9 : Ts)).length ≤ 299 + 256) ∧
    ([5, 6] : List Ts).length ≤ 2 := by decide +kernel
theorem witness_ArmWithoutClearJoinsBursts : (recorder true 3).en = true := rfl
/-- One operation for each clause that changes what the clause speaks of. -/
theorem witness_OnlyTheNamedWritersWrite :
    after (fun t => (t.log, t.idx)) (exec (.edge 1200) (recorder true 3)) = some ([(3, 1200)], 4) ∧
    exec .clear (recorder true 3) = .next (recorder true 0) ∧ exec .arm (recorder false 3) = .next (recorder true 3) ∧
    after State.res (exec .decode (recorder false 3)) = some (.err .edgeCountMismatch) := ⟨rfl, rfl, rfl, rfl⟩
theorem witness_OnlyAnArmedDecodeStops : (Instr.decode = .decode ∧ (recorder true 86).en = true) ∧
    ¬ (Instr.decode = .decode ∧ (recorder false 86).en = true) ∧
    ¬ (Instr.edge 5 = .decode ∧ (recorder true 86).en = true) := by decide
theorem witness_ArmedDecodeIsRefused : (recorder true 86).en = true := rfl
theorem witness_ResultStaysUntilTheNextDecode : .decode ∉ [Instr.clear, .arm, .edge 5, .disarm] := by decide
theorem witness_DecodeLeavesTheCaptureAlone : p1State.en = false := rfl
theorem witness_DecodeComputesTheReferenceVerdict : p1State.en = false ∧
    Frame.verdict Config.decided p1State.idx.toNat p1State.logRead = .ok 652 351 := by decide +kernel
/-- V95, V97: another RES before, another entry 86, and edges dropped since. -/
theorem witness_DecodeDependsOnCountAndFirst86Only :
    p1State.en = false ∧
    ({ p1State with res := .err .parityError, log := Memory.write p1State.log 86 9600 } : State).en = false ∧
    (∀ i, i < 86 → p1State.logRead i = State.logRead
      { p1State with res := .err .parityError, log := Memory.write p1State.log 86 9600 } i) := by decide +kernel
theorem witness_RepeatedDecodeChangesNothing : ∃ t, exec .decode p1State = .next t := ⟨_, rfl⟩
/-- Both sides of the count, and the two nearest counts. -/
theorem witness_CountOtherThan86GivesCodeOne : (recorder false 86).en = false ∧ (recorder false 86).idx = 86 ∧
    (recorder false 85).idx ≠ 86 ∧ (recorder false 87).idx ≠ 86 := by decide
/-- Later below earlier, equal, and above, at the ends of the range. -/
theorem witness_DeltaIsTheWrapSafeDifference : (0#32).toNat < (0xFFFFFFFF#32).toNat ∧
    ¬ (7#32).toNat < (7#32).toNat ∧ ¬ (0xFFFFFFFF#32).toNat < (0#32).toNat := by decide
theorem witness_OtherWrapConstantLosesOneMicrosecond : (0#32).toNat < (0xFFFFFFFF#32).toNat ∧
    ¬ (7#32).toNat < (7#32).toNat := by decide
theorem witness_ConvertFillsTheDurations : p1State.Counted := by decide
theorem witness_VerdictDoesNotDependOnTheWidth : 16 ≤ 16 ∧ 16 ≤ 32 ∧
    ∀ i, i < 85 → (fun n => 65000 + 60 * n) i ≤ (fun n => 65000 + 60 * n) (i + 1) ∧
      (fun n => 65000 + 60 * n) (i + 1) < (fun n => 65000 + 60 * n) i + 2 ^ 16 ∧
      (fun n => 65000 + 60 * n) (i + 1) < (fun n => 65000 + 60 * n) i + 2 ^ 32 := by
  refine ⟨by decide, by decide, fun i _ => ?_⟩
  dsimp only
  omega
/-- A counted frame that passes the first checkpoint and one that does not (V51, V50). -/
theorem witness_FirstCheckpointIsTheInitialSignal : State.reset.cc = 0 ∧
    ((p1With 0 800).Counted ∧ (p1With 0 800).InitialInWindows) ∧
    ((p1With 0 799).Counted ∧ ¬ (p1With 0 799).InitialInWindows) := by decide +kernel
/-- One pair fails; the terminal alone fails (V40, V48). Where both pass: witness_ParityErrorIsTheChecksum. -/
theorem witness_FinalCheckpointMergesDataAndTerminal :
    ((p1With 17 40).Counted ∧ (p1With 17 40).InitialInWindows ∧ ¬ (p1With 17 40).PairCompliant 6) ∧
    ((p1With 84 56).Counted ∧ (p1With 84 56).InitialInWindows ∧ ¬ (p1With 84 56).TerminalInWindow) := by decide +kernel
theorem witness_SplitCheckpointsSeparateDataAndTerminal :
    (p1With 84 44).Counted ∧ (p1With 84 44).InitialInWindows ∧ (∀ k < 40, (p1With 84 44).PairCompliant k) ∧
      ¬ (p1With 84 44).TerminalInWindow := by decide +kernel
theorem witness_ModesDifferOnlyInTheTerminalCode : (p1With 84 60).en = false ∧
    after State.res (decodeWith ⟨2 ^ 32, .merged⟩ (p1With 84 60)) ≠
      after State.res (decodeWith ⟨2 ^ 32, .split⟩ (p1With 84 60)) := by decide +kernel
/-- No initial check passes (V59), three do (V56), all four do (V49). -/
theorem witness_CounterCountsThePassedChecks :
    (∃ s : State, s.Counted ∧ ¬ s.InitialInWindows ∧ s.initialChecksPassed = 0 ∧ after State.cc (exec .decode s) = some 0) ∧
    ((p1With 3 86).Counted ∧ ¬ (p1With 3 86).InitialInWindows ∧ (p1With 3 86).initialChecksPassed = 3) ∧
    (p1With 84 55).Counted ∧ (p1With 84 55).InitialInWindows :=
  ⟨⟨captured 100000 (frameOf [799, 19, 74, 86] 50 26 70 50 [0x02, 0x8C, 0x01, 0x5F, 0xEE]), by decide +kernel⟩,
    by decide +kernel⟩
/-- The first and the last pair: a ZERO, and a NONE. -/
theorem witness_FieldsHoldTheirPairs : p1State.Counted ∧ p1State.InitialInWindows ∧ ¬ p1State.PairIsOne 0 ∧
    p1State.PairIsOne 38 ∧ ¬ p1State.PairIsOne 39 := by decide +kernel
theorem witness_SoftFailedPairForcesCodeThree :
    ((p1With 5 67).Counted ∧ (p1With 5 67).InitialInWindows ∧ ¬ (p1With 5 67).PairCompliant 0) ∧
    ((p1With 83 76).Counted ∧ (p1With 83 76).InitialInWindows ∧ ¬ (p1With 83 76).PairCompliant 39) := by decide +kernel
/-- A right and a wrong checksum (P1, V76). -/
theorem witness_ParityErrorIsTheChecksum :
    p1State.Timed ∧ (captured 100000 (p1 [0x02, 0x8C, 0x01, 0x5F, 0xEF])).Timed := by decide +kernel
/-- A positive and a negative temperature: the boundary of the first clause of the second part. -/
theorem witness_TemperatureIsSignMagnitude : (0x7FFF#16).toNat < 2 ^ 15 ∧ (0#16).toNat < 2 ^ 15 := by decide
/-- A right checksum with values in range, and out of it (P1, V66). -/
theorem witness_RangeErrorOrTheTwoValues : p1State.Timed ∧
    (captured 100000 (p1 [0x03, 0xE8, 0x00, 0x00, 0xEB])).Timed ∧
    after (fun t => decide (t.fieldNat 4 = (t.fieldNat 0 + t.fieldNat 1 + t.fieldNat 2 + t.fieldNat 3) % 256))
      (exec .decode p1State) = some true ∧
    after (fun t => decide (t.fieldNat 4 = (t.fieldNat 0 + t.fieldNat 1 + t.fieldNat 2 + t.fieldNat 3) % 256))
      (exec .decode (captured 100000 (p1 [0x03, 0xE8, 0x00, 0x00, 0xEB]))) = some true := by decide +kernel
theorem witness_OkMeansEveryCheckPassed : after State.res (exec .decode p1State) = some (.ok 652 351) := by decide +kernel
/-- The three shapes of RES. -/
theorem witness_OutputPortsShowTheResult : State.reset.res = .none ∧
    ({ State.reset with res := .err .rangeError } : State).res = .err .rangeError ∧
    ({ State.reset with res := .ok 500 0xFF9B } : State).res = .ok 500 0xFF9B := ⟨rfl, rfl, rfl⟩
/-- A DECODE under the decided parameters, and one under SPLIT that shows 4 (V46). -/
theorem witness_ResultCodesFourAndSevenNeverShow :
    after (fun t => t.outputs.resCode) (exec .decode p1State) = some 0 ∧
    after (fun t => t.outputs.resCode) (decodeWith ⟨2 ^ 32, .split⟩ (p1With 84 60)) = some 4 := by decide +kernel

/-- The invariant holds in a state with edges captured and an edge waiting, and the step from it is a next state. -/
theorem witness_StepKeepsTheInvariant :
    State.Inv { waiting ⟨false, true, 50, false, 0⟩ with idx := 1, log := [(0, 7)] } ∧
    after State.idx (step { waiting ⟨false, true, 50, false, 0⟩ with idx := 1, log := [(0, 7)] }) = some 2 :=
  ⟨⟨rfl, fun i hi => by
      have : i = 0 := by simpa using hi
      subst this; rfl, trivial⟩, rfl⟩

theorem witness_NoDecodeReadsAnUnwrittenEntry : p1State.Inv ∧ p1State.en = false :=
  ⟨⟨by decide, by decide, trivial⟩, rfl⟩

/-- A window of 86 edges and one of 342 (program P4), and two other counts. -/
theorem witness_CaptureWindowDecodesItsLast86Edges : (List.replicate 86 (9 : Ts)).length % 256 = 86 ∧
    (List.replicate 342 (9 : Ts)).length % 256 = 86 ∧ (List.replicate 85 (9 : Ts)).length % 256 ≠ 86 ∧
    ([] : List Ts).length % 256 ≠ 86 := by decide +kernel

end Sys2Proof.Machine
end

section
/-! PROOFS. The verdict does not depend on the timestamp width (92_eei_decisions.md D1): with WRAP_K = M a delta is the
elapsed time modulo M, and the reference verdict reads nothing of the durations but the numbers of the first 85. -/

namespace Sys2Proof.Machine

/-! ## The delta with WRAP_K = M -/

/-- With WRAP_K = M the two branches of delta are one subtraction modulo M (42_duration_converter.md R122). -/
theorem delta_eq_sub {w : Nat} (earlier later : BitVec w) : delta (2 ^ w) earlier later = later - earlier := by
  apply BitVec.eq_of_toNat_eq
  rw [BitVec.toNat_sub]
  unfold delta
  split
  next => rw [BitVec.toNat_ofNat]
  next h =>
    have hlt := earlier.isLt
    have hshift : 2 ^ w - earlier.toNat + later.toNat = 2 ^ w + (later.toNat - earlier.toNat) := by omega
    rw [BitVec.toNat_ofNat, hshift, Nat.add_mod_left]

/-- Two instants a gap apart have the gap modulo M as their delta (R124). -/
theorem delta_ofNat_add (w a gap : Nat) :
    delta (2 ^ w) (BitVec.ofNat w a) (BitVec.ofNat w (a + gap)) = BitVec.ofNat w gap := by
  rw [delta_eq_sub, BitVec.ofNat_add, add_sub_cancel_left]

namespace Frame

/-- A gap below M between two instants is their duration. -/
theorem durations_ofNat_toNat {w : Nat} (mode : CkptMode) {instants : Nat → Nat} {i : Nat}
    (hle : instants i ≤ instants (i + 1)) (hlt : instants (i + 1) < instants i + 2 ^ w) :
    (durations ⟨2 ^ w, mode⟩ (fun n => BitVec.ofNat w (instants n)) i).toNat = instants (i + 1) - instants i := by
  obtain ⟨gap, hgap⟩ := Nat.exists_eq_add_of_le hle
  have hsmall : gap < 2 ^ w := by omega
  rw [durations, hgap, delta_ofNat_add, BitVec.toNat_ofNat, Nat.mod_eq_of_lt hsmall, Nat.add_sub_cancel_left]

/-! ## The verdict is a function of the first 85 durations as numbers -/

theorem inWindow_congr {v w : Nat} {x : BitVec v} {y : BitVec w} (h : x.toNat = y.toNat) (win : Window) :
    inWindow x win = inWindow y win := by
  rw [inWindow, inWindow, h]

/-- Two sequences of durations, of any two widths, that are the same 85 numbers. -/
def SameNumbers {v w : Nat} (d : Nat → BitVec v) (e : Nat → BitVec w) : Prop :=
  ∀ i, i < 85 → (d i).toNat = (e i).toNat

section
variable {v w : Nat} {d : Nat → BitVec v} {e : Nat → BitVec w}

theorem SameNumbers.inWindow (h : SameNumbers d e) {i : Nat} (hi : i < 85) (win : Window) :
    Machine.inWindow (d i) win = Machine.inWindow (e i) win :=
  inWindow_congr (h i hi) win

theorem SameNumbers.initialOk (h : SameNumbers d e) : Frame.initialOk d = Frame.initialOk e := by
  rw [Frame.initialOk, Frame.initialOk, h.inWindow (by decide), h.inWindow (by decide), h.inWindow (by decide),
    h.inWindow (by decide)]

theorem SameNumbers.compliant (h : SameNumbers d e) {k : Nat} (hk : k < 40) :
    Machine.compliant (d (4 + 2 * k)) (d (5 + 2 * k)) = Machine.compliant (e (4 + 2 * k)) (e (5 + 2 * k)) := by
  have hlo : 4 + 2 * k < 85 := by omega
  have hhi : 5 + 2 * k < 85 := by omega
  rw [Machine.compliant, Machine.compliant, h.inWindow hlo, h.inWindow hhi, h.inWindow hhi]

theorem SameNumbers.dataOk (h : SameNumbers d e) : Frame.dataOk d = Frame.dataOk e := by
  rw [Frame.dataOk, Frame.dataOk, Bool.eq_iff_iff, List.all_eq_true, List.all_eq_true]
  exact forall₂_congr fun k hk => by rw [h.compliant (List.mem_range.mp hk)]

theorem SameNumbers.terminalOk (h : SameNumbers d e) : Frame.terminalOk d = Frame.terminalOk e :=
  h.inWindow (by decide) Config.wS4L

theorem SameNumbers.bit (h : SameNumbers d e) {k : Nat} (hk : k < 40) : Frame.bit d k = Frame.bit e k := by
  have hlo : 4 + 2 * k < 85 := by omega
  have hhi : 5 + 2 * k < 85 := by omega
  rw [Frame.bit, Frame.bit, h.inWindow hlo, h.inWindow hhi]

/-- Field `f` takes its bits from the pairs `8 * f` to `8 * f + 7`, all below 40. -/
theorem SameNumbers.byte (h : SameNumbers d e) {f : Nat} (hf : f < 5) : Frame.byte d f = Frame.byte e f := by
  rw [Frame.byte, Frame.byte, h.bit (by omega), h.bit (by omega), h.bit (by omega), h.bit (by omega), h.bit (by omega),
    h.bit (by omega), h.bit (by omega), h.bit (by omega)]

theorem SameNumbers.verdictOfDurations (h : SameNumbers d e) (mode : CkptMode) :
    Frame.verdictOfDurations mode d = Frame.verdictOfDurations mode e := by
  rw [Frame.verdictOfDurations, Frame.verdictOfDurations, h.initialOk, h.dataOk, h.terminalOk, h.byte (by decide),
    h.byte (by decide), h.byte (by decide), h.byte (by decide), h.byte (by decide)]

end

/-- Gaps below both moduli give the same durations at both widths. -/
theorem sameNumbers_durations {v w : Nat} (mode : CkptMode) {instants : Nat → Nat}
    (h : ∀ i, i < 85 → instants i ≤ instants (i + 1) ∧ instants (i + 1) < instants i + 2 ^ v ∧
      instants (i + 1) < instants i + 2 ^ w) :
    SameNumbers (durations ⟨2 ^ v, mode⟩ fun i => BitVec.ofNat v (instants i))
      (durations ⟨2 ^ w, mode⟩ fun i => BitVec.ofNat w (instants i)) := by
  intro i hi
  obtain ⟨hle, hv, hw⟩ := h i hi
  rw [durations_ofNat_toNat mode hle hv, durations_ofNat_toNat mode hle hw]

end Frame

/-- Settles O35: gaps below both moduli give the same 85 durations as numbers, and the verdict reads nothing else. The
widths need not be 16 or more. -/
theorem verdictDoesNotDependOnTheWidth : Obligations.VerdictDoesNotDependOnTheWidth := by
  intro v w mode count instants _ _ hgaps
  unfold Frame.verdict
  rw [(Frame.sameNumbers_durations mode hgaps).verdictOfDurations mode]

end Sys2Proof.Machine
end

section
/-! PROOFS. The state of the core (10_state.md): what each operation may write, which operation the input ports bring to a
step, and the invariant of a run, held at reset and kept by every step. -/

namespace Sys2Proof.Machine

/-! ## From the ports to the operation -/

theorem step_of_quiet {s : State} {left : List PortSample} (h : fetch s = .quiet left) :
    step s = .next (s.advance left) := by
  simp only [step, h]

theorem step_of_word {s : State} {w : PortWord} {left : List PortSample} {i : Instr} (hf : fetch s = .word w left)
    (hd : decode w = .ok i) : step s = exec i (s.advance left) := by
  simp only [step, hf, hd]

theorem take_edge_alone {p : PortSample} (he : p.edgeStb = true) (hc : p.cmdStb = false) (b : Bool) :
    p.take b = some (p.eventWord, p.edgeTaken) := by
  simp only [PortSample.take, he, hc]

theorem take_cmd_alone {p : PortSample} (he : p.edgeStb = false) (hc : p.cmdStb = true) (b : Bool) :
    p.take b = some (.cmd p.cmd, p.cmdTaken) := by
  simp only [PortSample.take, he, hc]

theorem take_idle {p : PortSample} (he : p.edgeStb = false) (hc : p.cmdStb = false) (b : Bool) : p.take b = none := by
  simp only [PortSample.take, he, hc]

/-- A sample with no strobe left is used up. -/
theorem putBack_idle {p : PortSample} (he : p.edgeStb = false) (hc : p.cmdStb = false) (later : List PortSample) :
    p.putBack later = later := by
  simp [PortSample.putBack, he, hc]

section
variable {s : State} {p : PortSample} {later : List PortSample}

theorem fetch_of_take_none (hin : s.inputs = p :: later) (hrst : p.rst = false)
    (ht : p.take (Config.edgeFirst s.tick) = none) : fetch s = .quiet later := by
  simp [fetch, hin, hrst, ht]

theorem fetch_of_take_some {w : PortWord} {left : PortSample} (hin : s.inputs = p :: later) (hrst : p.rst = false)
    (ht : p.take (Config.edgeFirst s.tick) = some (w, left)) : fetch s = .word w (left.putBack later) := by
  simp [fetch, hin, hrst, ht]

/-- An edge strobe alone is fetched as its event word, and uses the sample up. -/
theorem fetch_edge_alone (hin : s.inputs = p :: later) (hrst : p.rst = false) (he : p.edgeStb = true)
    (hc : p.cmdStb = false) : fetch s = .word p.eventWord later := by
  rw [fetch_of_take_some hin hrst (take_edge_alone he hc _), putBack_idle (p := p.edgeTaken) rfl hc]

/-- A command strobe alone is fetched as its command code, and uses the sample up. -/
theorem fetch_cmd_alone (hin : s.inputs = p :: later) (hrst : p.rst = false) (he : p.edgeStb = false)
    (hc : p.cmdStb = true) : fetch s = .word (.cmd p.cmd) later := by
  rw [fetch_of_take_some hin hrst (take_cmd_alone he hc _), putBack_idle (p := p.cmdTaken) he rfl]

end

/-- Settles O5: the three strobe patterns, each fetched as its word or as nothing. -/
theorem portsReachTheirOperation : Obligations.PortsReachTheirOperation := by
  intro s p later hin hrst
  refine ⟨fun he hc => ?_, fun he hc => ?_, fun he hc => ?_⟩
  · exact step_of_word (fetch_edge_alone hin hrst he hc) (eventWord_decodes p he)
  · exact ⟨decodeCmd p.cmd, rfl, step_of_word (fetch_cmd_alone hin hrst he hc) rfl⟩
  · exact step_of_quiet (fetch_of_take_none hin hrst (take_idle he hc _))

/-! ## The writers of each piece of state -/

/-- Settles O20, by the outcomes an operation can have: each of them is one named update. -/
theorem onlyTheNamedWritersWrite : Obligations.OnlyTheNamedWritersWrite := by
  intro i s t h
  rcases exec_cases i s with ⟨u, hi, harmed, hx⟩ | hx | ⟨hi, hx⟩ | ⟨hi, hx⟩ | ⟨hi, hx⟩ | ⟨hi, -, hx⟩ | ⟨-, -, hx⟩ <;>
    rw [hx] at h <;> cases h
  · -- EDGE, armed
    exact ⟨fun _ => ⟨harmed, u, hi⟩, fun _ => .inr ⟨harmed, u, hi⟩, by simp, by simp, rfl, rfl, rfl⟩
  · -- no state change
    exact ⟨by simp, by simp, by simp, by simp, rfl, rfl, rfl⟩
  · -- CLEAR
    exact ⟨by simp, fun _ => .inl hi, by simp, by simp, rfl, rfl, rfl⟩
  · -- ARM
    exact ⟨by simp, by simp, fun _ => .inl hi, by simp, rfl, rfl, rfl⟩
  · -- DISARM
    exact ⟨by simp, by simp, fun _ => .inr hi, by simp, rfl, rfl, rfl⟩
  · -- DECODE, disarmed
    have hkeep := decodeStages_capture Config.decided s
    exact ⟨fun hne => absurd hkeep.log hne, fun hne => absurd hkeep.idx hne, fun hne => absurd hkeep.en hne,
      fun _ => hi, hkeep.inputs, hkeep.tick, hkeep.resets⟩

/-! ## Reset -/

/-- A log in which nothing has been written has no value of its own at any index (10_state.md R28). -/
theorem logRead_of_empty {s : State} (h : s.log = []) (i : Nat) :
    s.logRead i = Config.unwrittenEntry s.resets i := by
  simp [State.logRead, h]

/-- Settles O9: the log of the reset state is empty. -/
theorem resetStateIsTheSpecs : Obligations.ResetStateIsTheSpecs :=
  ⟨rfl, rfl, rfl, logRead_of_empty rfl⟩

/-! ## RES is legal after every DECODE -/

theorem legal_err {c : FailCode} (h : c ≠ .terminalInvalid) (mode : CkptMode) : Res.legal mode (.err c) := fun _ => h

/-- Under MERGED the final checkpoint raises code 3 (43_protocol_validator.md R137). -/
theorem legal_finalCode (mode : CkptMode) : Res.legal mode (.err (finalCode mode)) := by
  rintro rfl
  decide

/-- Values in range make a legal Ok (45_value_assembler.md R163): both fit i16 (30_encoding.md R67). -/
theorem legal_ok_of_rangeOk {t : State} (h : t.rangeOk) (mode : CkptMode) :
    Res.legal mode (.ok (joinBytes t.hh t.hl) (BitVec.ofInt 16 (signMagnitude (joinBytes t.th t.tl)))) := by
  obtain ⟨hhum, hlo, hhi⟩ := h
  have humInt : (joinBytes t.hh t.hl).toInt = (joinBytes t.hh t.hl).toNat := BitVec.toInt_eq_toNat_of_lt (by omega)
  have tempInt : (BitVec.ofInt 16 (signMagnitude (joinBytes t.th t.tl))).toInt = signMagnitude (joinBytes t.th t.tl) :=
    BitVec.toInt_ofInt_eq_self (by decide) (by omega) (by omega)
  rw [Res.legal, humInt, tempInt]
  exact ⟨hhum, Int.natCast_nonneg _, hlo, hhi⟩

/-- Every way a DECODE ends leaves a legal RES, under every value of the parameters. -/
theorem decodeStages_legal (p : Params) (s : State) : Res.legal p.ckptMode (decodeStages p s).final.res := by
  rcases decodeStages_cases p s with ⟨-, h⟩ | ⟨-, -, h⟩ | ⟨-, -, -, -, h⟩ | ⟨-, -, -, -, h⟩ |
    ⟨-, -, -, -, ⟨-, h⟩ | ⟨-, -, h⟩ | ⟨-, hrange, h⟩⟩ <;> rw [h]
  · exact legal_err (by decide) _
  · exact legal_err (by decide) _
  · exact legal_err (by decide) _
  · exact legal_finalCode _
  · exact legal_err (by decide) _
  · exact legal_err (by decide) _
  · exact legal_ok_of_rangeOk hrange _

/-! ## The invariant -/

/-- A state with nothing written, IDX = 0 and RES = None meets the invariant. -/
theorem inv_of_empty {s : State} (hlog : s.log = []) (hidx : s.idx = 0) (hres : s.res = .none) : s.Inv where
  canonical := by rw [hlog]; rfl
  written i hi := by simp [hidx] at hi
  legal := by rw [hres]; trivial

/-- Settles O51: the reset state has an empty log. -/
theorem resetMeetsTheInvariant : Obligations.ResetMeetsTheInvariant := inv_of_empty rfl rfl rfl

/-- An index below IDX after a recording is the one just written or was below IDX before it. Where IDX wraps to 0 there is
no index below it. -/
theorem eq_or_lt_of_lt_succ {v : Byte} {i : Nat} (h : i < (v + 1).toNat) : i = v.toNat ∨ i < v.toNat := by
  have hsucc : (v + 1).toNat ≤ v.toNat + 1 := by
    rw [BitVec.toNat_add]
    exact Nat.mod_le _ _
  omega

section
variable {s t : State}

/-- The invariant speaks of LOG, IDX and RES only, and of RES only that it is legal. -/
theorem State.Inv.of_same_log (h : s.Inv) (hlog : t.log = s.log) (hidx : t.idx = s.idx)
    (hres : Res.legal Config.decided.ckptMode t.res) : t.Inv where
  canonical := by rw [hlog]; exact h.canonical
  written i hi := by rw [hlog]; exact h.written i (hidx ▸ hi)
  legal := hres

theorem advance_keeps_inv (h : s.Inv) (left : List PortSample) : (s.advance left).Inv :=
  h.of_same_log rfl rfl h.legal

theorem setEn_keeps_inv (h : s.Inv) (b : Bool) : (s.setEn b).Inv := h.of_same_log rfl rfl h.legal

theorem clear_keeps_inv (h : s.Inv) : (s.setIdx 0).Inv where
  canonical := h.canonical
  written i hi := by simp at hi
  legal := h.legal

theorem record_keeps_inv (h : s.Inv) (u : Ts) : (s.record u).Inv where
  canonical := Memory.wf_write s.log s.idx u h.canonical
  written i hi := by
    rw [record_log, Memory.read?_write]
    split
    next => rfl
    next hne => exact h.written i ((eq_or_lt_of_lt_succ hi).resolve_left hne)
  legal := h.legal

theorem decodeStages_keeps_inv (h : s.Inv) : (decodeStages Config.decided s).final.Inv :=
  have hkeep := decodeStages_capture Config.decided s
  h.of_same_log hkeep.log hkeep.idx (decodeStages_legal Config.decided s)

/-- Every operation keeps the invariant. -/
theorem exec_keeps_inv {i : Instr} (h : s.Inv) (hx : exec i s = .next t) : t.Inv := by
  rcases exec_cases i s with ⟨u, -, -, hi⟩ | hi | ⟨-, hi⟩ | ⟨-, hi⟩ | ⟨-, hi⟩ | ⟨-, -, hi⟩ | ⟨-, -, hi⟩ <;>
    rw [hi] at hx <;> cases hx
  · exact record_keeps_inv h u
  · exact h
  · exact clear_keeps_inv h
  · exact setEn_keeps_inv h true
  · exact setEn_keeps_inv h false
  · exact decodeStages_keeps_inv h

/-- Every step keeps the invariant: it does nothing, resets, or runs one operation. -/
theorem step_keeps_inv (h : s.Inv) (hs : step s = .next t) : t.Inv := by
  rcases step_cases s with ⟨left, hq⟩ | ⟨left, hr⟩ | ⟨w, left, i, -, -, hx⟩
  · cases hq.symm.trans hs
    exact advance_keeps_inv h left
  · cases hr.symm.trans hs
    exact inv_of_empty rfl rfl rfl
  · exact exec_keeps_inv (advance_keeps_inv h left) (hx.symm.trans hs)

end

/-- Settles O52: a step does nothing, resets or runs one operation, and each of these keeps the invariant. -/
theorem stepKeepsTheInvariant : Obligations.StepKeepsTheInvariant := fun _ _ h hs => step_keeps_inv h hs

end Sys2Proof.Machine
end

section
/-! PROOFS. The memory family (20_memory.md): one step runs the one operation its input carries (R48). -/

namespace Sys2Proof.Machine

/-- Settles O4: the equation of a step whose input carries a port word, for every word that decodes. -/
theorem stepRunsTheDecodedOperation : Obligations.StepRunsTheDecodedOperation := by
  intro s w left i hfetch hdecode
  exact step_of_word hfetch hdecode

end Sys2Proof.Machine
end

section
/-! PROOFS. The encoding family (30_encoding.md): port words, byte images and table numbers name the same operations, the
operation of a table row is the one the next step runs, and what the output ports show of a result. -/

namespace Sys2Proof

/-! ## Port words -/

/-- An event word is its strobe bit on top of its timestamp (30_encoding.md R73). -/
theorem eventWord_of_parts (bits : BitVec 33) : (BitVec.ofBool (bits.getLsbD 32) ++ bits.setWidth 32 : BitVec 33) = bits := by
  apply BitVec.eq_of_getLsbD_eq
  intro i hi
  rw [BitVec.getLsbD_append]
  split
  next hlow => simp [hlow]
  next hhigh =>
    obtain rfl : i = 32 := by omega
    simp

theorem encode_decodeCmd (op : BitVec 3) : encode (decodeCmd op) = .cmd op := by
  revert op
  decide

theorem decode_encode (i : Instr) : decode (encode i) = .ok i := by
  cases i with
  | edge t =>
    have hstrobe : (1#1 ++ t : BitVec 33).getLsbD 32 = true := eventWord_strobe true t
    have htime : (1#1 ++ t : BitVec 33).setWidth 32 = t := eventWord_timestamp true t
    simp only [encode, decode, hstrobe, htime, if_true]
  | _ => rfl

theorem encode_of_decode {w : PortWord} {i : Instr} (h : decode w = .ok i) : encode i = w := by
  cases w with
  | cmd op =>
    cases h
    exact encode_decodeCmd op
  | evt bits =>
    rw [decode] at h
    split at h
    next hstrobe =>
      cases h
      have hparts := eventWord_of_parts bits
      rw [hstrobe] at hparts
      exact congrArg PortWord.evt hparts
    next => cases h

/-- A port word means an operation exactly when it is the encoding of that operation. -/
theorem decode_eq_ok_iff {w : PortWord} {i : Instr} : decode w = .ok i ↔ encode i = w :=
  ⟨encode_of_decode, fun h => h ▸ decode_encode i⟩

theorem encode_wf (i : Instr) : (encode i).wf = true := by
  cases i with
  | edge t => exact eventWord_strobe true t
  | _ => rfl

/-! ## Numbers of port words and of byte images (log entry 11) -/

/-- The number spec/opcode_table.json has for a port word. -/
def PortWord.number : PortWord → Nat
  | .cmd op => op.toNat
  | .evt bits => bits.toNat

/-- With its strobe set, an event word's number is the timestamp above 2 ^ 32. -/
theorem PortWord.number_encode_edge (t : Ts) : (encode (.edge t)).number = 2 ^ 32 + t.toNat := by
  have ht := t.isLt
  simp only [encode, PortWord.number, BitVec.toNat_append]
  rw [← Nat.shiftLeft_add_eq_or_of_lt ht]
  rfl

/-- Every well-formed port word is the one its number stands for. -/
theorem portWordOfNumber_number {w : PortWord} (h : w.wf = true) : portWordOfNumber w.number = .ok w := by
  cases w with
  | cmd op => simp [portWordOfNumber, PortWord.number, op.isLt]
  | evt bits =>
    have hlt := bits.isLt
    have hge : 2 ^ 32 ≤ bits.toNat := Nat.ge_two_pow_of_testBit h
    have h8 : ¬ bits.toNat < 8 := by omega
    simp only [portWordOfNumber, PortWord.number, h8, Nat.not_lt.mpr hge, hlt, if_true, if_false, BitVec.ofNat_toNat,
      BitVec.setWidth_eq]

/-- The byte image of a port word, read as a number, is the word's number. -/
theorem numberOfBytes_bytesOfPortWord (w : PortWord) : numberOfBytes (bytesOfPortWord w) = w.number := by
  cases w with
  | cmd op =>
    have hlt := op.isLt
    simp only [bytesOfPortWord, numberOfBytes, PortWord.number, BitVec.toNat_setWidth]
    omega
  | evt bits =>
    have hlt := bits.isLt
    simp only [bytesOfPortWord, numberOfBytes, PortWord.number, BitVec.extractLsb'_toNat, Nat.shiftRight_eq_div_pow]
    omega

/-- `k` bytes hold every number below 256 ^ k. -/
theorem numberOfBytes_bytesOfNumber {k n : Nat} (h : n < 256 ^ k) : numberOfBytes (bytesOfNumber k n) = n := by
  induction k generalizing n with
  | zero =>
    have : n = 0 := by simpa using h
    simp [bytesOfNumber, numberOfBytes, this]
  | succ k ih =>
    have hrest : n / 256 < 256 ^ k := Nat.div_lt_of_lt_mul (by rwa [Nat.pow_succ'] at h)
    rw [bytesOfNumber, numberOfBytes, ih hrest, BitVec.toNat_ofNat]
    exact Nat.mod_add_div n 256

/-! ## Decoding bytes and table words -/

/-- Bytes decode to an operation exactly when there are some and their number is that of its port word. -/
theorem decodeBytes_eq_ok_iff {bs : List Byte} {i : Instr} :
    decodeBytes bs = .ok i ↔ bs ≠ [] ∧ portWordOfNumber (numberOfBytes bs) = .ok (encode i) := by
  cases bs with
  | nil => simp [decodeBytes]
  | cons b rest =>
    rw [decodeBytes]
    cases portWordOfNumber (numberOfBytes (b :: rest)) with
    | ok w =>
      have hword : decode w = .ok i ↔ w = encode i := decode_eq_ok_iff.trans eq_comm
      simpa using hword
    | error r => simp

theorem bytesOfPortWord_ne_nil (w : PortWord) : bytesOfPortWord w ≠ [] := by
  cases w <;> exact List.cons_ne_nil _ _

theorem decodeBytes_encodeBytes (i : Instr) : decodeBytes (encodeBytes i) = .ok i := by
  refine decodeBytes_eq_ok_iff.mpr ⟨bytesOfPortWord_ne_nil (encode i), ?_⟩
  rw [encodeBytes, numberOfBytes_bytesOfPortWord, portWordOfNumber_number (encode_wf i)]

/-- The bytes of a table word hold all its bits. -/
theorem numberOfBytes_tableBytes (nbits w : Nat) : numberOfBytes (tableBytes nbits w) = w % 2 ^ nbits := by
  apply numberOfBytes_bytesOfNumber
  calc w % 2 ^ nbits < 2 ^ nbits := Nat.mod_lt _ (Nat.two_pow_pos nbits)
    _ ≤ 2 ^ (8 * max 5 ((nbits + 7) / 8)) := Nat.pow_le_pow_right (by decide) (by omega)
    _ = 256 ^ max 5 ((nbits + 7) / 8) := Nat.pow_mul 2 8 _

theorem tableBytes_ne_nil (nbits w : Nat) : tableBytes nbits w ≠ [] := by
  obtain ⟨k, hk⟩ : ∃ k, max 5 ((nbits + 7) / 8) = k + 1 := ⟨max 5 ((nbits + 7) / 8) - 1, by omega⟩
  rw [tableBytes, hk, bytesOfNumber]
  exact List.cons_ne_nil _ _

/-- A row's bits decode to an operation exactly when their number is that of its port word. -/
theorem decodeTableWord_eq_some_iff {nbits w : Nat} {i : Instr} :
    decodeTableWord nbits w = some i ↔ portWordOfNumber (w % 2 ^ nbits) = .ok (encode i) := by
  have hbytes : decodeBytes (tableBytes nbits w) = .ok i ↔ portWordOfNumber (w % 2 ^ nbits) = .ok (encode i) := by
    rw [decodeBytes_eq_ok_iff, numberOfBytes_tableBytes, and_iff_right (tableBytes_ne_nil nbits w)]
  rw [← hbytes, decodeTableWord]
  cases decodeBytes (tableBytes nbits w) <;> simp

/-- An operation is read back from the number of its port word, at any width of the row that can hold it. -/
theorem decodeTableWord_number {nbits : Nat} {i : Instr} (h : (encode i).number < 2 ^ nbits) :
    decodeTableWord nbits (encode i).number = some i := by
  rw [decodeTableWord_eq_some_iff, Nat.mod_eq_of_lt h, portWordOfNumber_number (encode_wf i)]

/-- Every command code is read from its table number (30_encoding.md R70, R71). -/
theorem decodeTableWord_cmd (op : BitVec 3) : decodeTableWord 8 op.toNat = some (decodeCmd op) := by
  have hnum : (encode (decodeCmd op)).number = op.toNat := by rw [encode_decodeCmd, PortWord.number]
  have hlt := op.isLt
  rw [← hnum]
  exact decodeTableWord_number (by omega)

/-- Every timestamp is read from the table number of its event word (R73). -/
theorem decodeTableWord_edge (t : Ts) : decodeTableWord 40 (2 ^ 32 + t.toNat) = some (.edge t) := by
  have hnum := PortWord.number_encode_edge t
  have hlt := t.isLt
  rw [← hnum]
  exact decodeTableWord_number (by omega)

/-! ## The statements on words -/

/-- Settles O3: each decoder accepts exactly the number of the operation's port word, and the byte image holds it. -/
theorem byteImagesRoundTrip : Obligations.ByteImagesRoundTrip := by
  refine ⟨fun i _ => decodeBytes_encodeBytes i, fun bs i h => ?_, fun op => ⟨decodeCmd op, rfl, decodeTableWord_cmd op⟩,
    decodeTableWord_edge⟩
  obtain ⟨-, hword⟩ := decodeBytes_eq_ok_iff.mp h
  exact hword

/-- Settles O2: a port word decodes to an operation exactly when it is its encoding. -/
theorem portWordsRoundTrip : Obligations.PortWordsRoundTrip := ⟨decode_encode, fun _ _ => encode_of_decode⟩

/-- Settles O1: the accepted words are encodings; the strobe bit of the last one is 0. -/
theorem portWordsDecodeAsTheTableSays : Obligations.PortWordsDecodeAsTheTableSays :=
  ⟨decode_encode .nop, decode_encode .clear, decode_encode .arm, decode_encode .disarm, decode_encode .decode,
    decode_encode .reserved5, decode_encode .reserved6, decode_encode .reserved7, decode_encode (.edge 1200), rfl⟩

end Sys2Proof

namespace Sys2Proof.Machine

/-! ## A table word as the next input -/

/-- The sample that carries a well-formed port word is fetched as that word, and is used up. -/
theorem fetch_ofWord {s : State} {w : PortWord} {later : List PortSample} (hin : s.inputs = PortSample.ofWord w :: later)
    (hwf : w.wf = true) : fetch s = .word w later := by
  cases w with
  | cmd op => exact fetch_cmd_alone hin rfl rfl rfl
  | evt bits =>
    have hword : (PortSample.ofWord (.evt bits)).eventWord = .evt bits := congrArg PortWord.evt (eventWord_of_parts bits)
    rw [fetch_edge_alone hin rfl hwf rfl, hword]

/-- The sample of a row's bits that decode carries the port word of their operation. -/
theorem ofTable_of_decodeTableWord {nbits w : Nat} {i : Instr} (h : decodeTableWord nbits w = some i) :
    PortSample.ofTable nbits w = PortSample.ofWord (encode i) := by
  simp only [PortSample.ofTable, decodeTableWord_eq_some_iff.mp h]

/-- Settles O7: the sample put in front is fetched as the encoding of the row's operation. -/
theorem tableWordIsTheNextStep : Obligations.TableWordIsTheNextStep := by
  intro s nbits w i h
  have hin : (s.withFetchWord nbits w).inputs = PortSample.ofWord (encode i) :: s.inputs :=
    congrArg (· :: s.inputs) (ofTable_of_decodeTableWord h)
  exact step_of_word (fetch_ofWord hin (encode_wf i)) (decode_encode i)

/-! ## What the output ports show (30_encoding.md R67) -/

section
variable {s : State}

theorem outputs_of_none (hres : s.res = .none) : s.outputs.resDone = 0 := by
  simp only [State.outputs, hres]

theorem outputs_of_err {c : FailCode} (hres : s.res = .err c) :
    s.outputs.resDone = 1 ∧ s.outputs.resCode = c.number := by
  simp only [State.outputs, hres, and_self]

theorem outputs_of_ok {hum temp : BitVec 16} (hres : s.res = .ok hum temp) :
    s.outputs.resDone = 1 ∧ s.outputs.resCode = 0 ∧ s.outputs.resHum = hum ∧ s.outputs.resTemp = temp := by
  simp only [State.outputs, hres, and_self]

end

/-- Settles O49: one clause for each shape of RES. -/
theorem outputPortsShowTheResult : Obligations.OutputPortsShowTheResult := fun _ =>
  ⟨rfl, rfl, outputs_of_none, fun _ => outputs_of_err, fun _ _ => outputs_of_ok⟩

/-! ## The numbers a DECODE shows -/

theorem FailCode.number_injective : Function.Injective FailCode.number := by
  intro c d
  cases c <;> cases d <;> decide

theorem FailCode.number_ne_seven (c : FailCode) : c.number ≠ 7 := by
  cases c <;> decide

theorem FailCode.number_eq_four_iff (c : FailCode) : c.number = 4 ↔ c = .terminalInvalid := by
  cases c <;> decide

/-- A DECODE that completes leaves a result, whichever way it ends (60_exceptions.md R186). -/
theorem decodeStages_res_ne_none (p : Params) (s : State) : (decodeStages p s).final.res ≠ .none := by
  rcases decodeStages_cases p s with ⟨-, h⟩ | ⟨-, -, h⟩ | ⟨-, -, -, -, h⟩ | ⟨-, -, -, -, h⟩ |
    ⟨-, -, -, -, ⟨-, h⟩ | ⟨-, -, h⟩ | ⟨-, -, h⟩⟩ <;> rw [h] <;> exact Res.noConfusion

/-- What the ports show of a legal result: done, never code 7, and code 4 only where the mode allows it. -/
theorem outputs_of_legal {mode : CkptMode} {s : State} (hdone : s.res ≠ .none) (hlegal : Res.legal mode s.res) :
    s.outputs.resDone = 1 ∧ s.outputs.resCode ≠ 7 ∧ (mode = .merged → s.outputs.resCode ≠ 4) := by
  cases hres : s.res with
  | none => exact absurd hres hdone
  | err c =>
    obtain ⟨hd, hc⟩ := outputs_of_err hres
    rw [hres] at hlegal
    rw [hc]
    exact ⟨hd, c.number_ne_seven, fun hm h4 => hlegal hm (c.number_eq_four_iff.mp h4)⟩
  | ok hum temp =>
    obtain ⟨hd, hc, -, -⟩ := outputs_of_ok hres
    rw [hc]
    exact ⟨hd, by decide, fun _ => by decide⟩

theorem eq_of_decodeWith_next {p : Params} {s t : State} (h : decodeWith p s = .next t) :
    t = (decodeStages p s).final := by
  rw [decodeWith] at h
  split at h <;> cases h
  rfl

theorem decodeWith_outputs {p : Params} {s t : State} (h : decodeWith p s = .next t) :
    t.outputs.resDone = 1 ∧ t.outputs.resCode ≠ 7 ∧ (p.ckptMode = .merged → t.outputs.resCode ≠ 4) := by
  rw [eq_of_decodeWith_next h]
  exact outputs_of_legal (decodeStages_res_ne_none p s) (decodeStages_legal p s)

/-- Settles O50: a DECODE leaves a result that is legal under its mode, and the ports show the code of that result. -/
theorem resultCodesFourAndSevenNeverShow : Obligations.ResultCodesFourAndSevenNeverShow := by
  refine ⟨⟨rfl, rfl, rfl, rfl, rfl, rfl⟩, FailCode.number_injective, fun _ _ _ => decodeWith_outputs, fun s t h => ?_⟩
  obtain ⟨hdone, hseven, hfour⟩ := decodeWith_outputs (p := Config.decided) h
  exact ⟨hdone, hfour rfl, hseven⟩

/-! ## The codes without an effect -/

/-- Settles O14: NOP and the reserved codes are encodings, and their meanings answer the state they are given. -/
theorem nopAndReservedCodesChangeNothing : Obligations.NopAndReservedCodesChangeNothing :=
  ⟨decode_encode .nop, decode_encode .reserved5, decode_encode .reserved6, decode_encode .reserved7,
    fun _ => ⟨rfl, rfl, rfl, rfl⟩⟩

end Sys2Proof.Machine
end

section
/-! PROOFS. The Edge Recorder family (40_edge_recorder.md): what a disarmed core keeps under every sequence of operations,
and what a burst of edges leaves in LOG. -/

namespace Sys2Proof.Machine

/-! ## Sequences of operations -/

theorem execAll_cons_of_next {i : Instr} {s t : State} (h : exec i s = .next t) (rest : List Instr) :
    execAll (i :: rest) s = execAll rest t := by
  simp only [execAll, h]

/-! ## The recorder's commands -/

theorem setEn_of_en {s : State} {b : Bool} (h : s.en = b) : s.setEn b = s := by
  subst h
  rfl

theorem exec_arm_armed {s : State} (h : s.en = true) : exec .arm s = .next s := congrArg _ (setEn_of_en h)

theorem exec_disarm_disarmed {s : State} (h : s.en = false) : exec .disarm s = .next s := congrArg _ (setEn_of_en h)

/-- Settles O15: code 1 is the encoding of CLEAR, whose meaning is the one update of IDX. -/
theorem clearResetsOnlyTheIndex : Obligations.ClearResetsOnlyTheIndex := fun _ => ⟨decode_encode .clear, rfl⟩

/-- Settles O16: ARM is the one update of EN, which leaves an armed state as it is. -/
theorem armSetsOnlyTheEnable : Obligations.ArmSetsOnlyTheEnable := fun _ =>
  ⟨decode_encode .arm, rfl, exec_arm_armed⟩

/-- Settles O13: a dropped edge answers the state it was given, so the ARM after it starts from that state. -/
theorem disarmedEdgeLeavesNoTrace : Obligations.DisarmedEdgeLeavesNoTrace := by
  intro t s h
  have hdropped := exec_edge_disarmed t s h
  exact ⟨hdropped, execAll_cons_of_next hdropped [.arm]⟩

/-! ## A disarmed core -/

/-- Disarmed, every operation but ARM and CLEAR completes and leaves the recorder's state alone: an EDGE is dropped, and a
DECODE only reads the capture (40_edge_recorder.md R95). -/
theorem exec_disarmed_capture {i : Instr} {s : State} (hen : s.en = false) (harm : i ≠ .arm) (hclear : i ≠ .clear) :
    ∃ t, exec i s = .next t ∧ SameCapture s t := by
  rcases exec_cases i s with ⟨-, -, harmed, -⟩ | hx | ⟨hi, -⟩ | ⟨hi, -⟩ | ⟨hi, -⟩ | ⟨-, -, hx⟩ | ⟨-, harmed, -⟩
  · -- EDGE, armed
    simp [hen] at harmed
  · -- no state change
    exact ⟨s, hx, .refl s⟩
  · -- CLEAR
    exact absurd hi hclear
  · -- ARM
    exact absurd hi harm
  · -- DISARM
    exact ⟨s, hi ▸ exec_disarm_disarmed hen, .refl s⟩
  · -- DECODE, disarmed
    exact ⟨_, hx, decodeStages_capture Config.decided s⟩
  · -- DECODE, armed
    simp [hen] at harmed

theorem execAll_disarmed_capture {ops : List Instr} {s : State} (hen : s.en = false) (harm : .arm ∉ ops)
    (hclear : .clear ∉ ops) : ∃ t, execAll ops s = .next t ∧ SameCapture s t := by
  induction ops generalizing s with
  | nil => exact ⟨s, rfl, .refl s⟩
  | cons i rest ih =>
    obtain ⟨hneArm, harmRest⟩ := List.ne_and_not_mem_of_not_mem_cons harm
    obtain ⟨hneClear, hclearRest⟩ := List.ne_and_not_mem_of_not_mem_cons hclear
    obtain ⟨t, hexec, hfirst⟩ := exec_disarmed_capture hen hneArm.symm hneClear.symm
    obtain ⟨u, hrun, hrest⟩ := ih (hfirst.en.trans hen) harmRest hclearRest
    exact ⟨u, (execAll_cons_of_next hexec rest).trans hrun, hfirst.trans hrest⟩

/-- Settles O17, by induction over the sequence that follows the DISARM: no operation of it writes LOG, IDX or EN. -/
theorem disarmFreezesTheCapture : Obligations.DisarmFreezesTheCapture := by
  intro s
  refine ⟨decode_encode .disarm, rfl, exec_disarm_disarmed, fun ops ⟨harm, hclear⟩ => ?_⟩
  obtain ⟨t, hrun, hkeep⟩ := execAll_disarmed_capture (s := s.setEn false) rfl harm hclear
  exact ⟨t, (execAll_cons_of_next rfl ops).trans hrun, hkeep.log, hkeep.idx, hkeep.en⟩

/-! ## One recorded edge -/

theorem record_idx_toNat (s : State) (t : Ts) : (s.record t).idx.toNat = (s.idx.toNat + 1) % 256 := by
  rw [record_idx, BitVec.toNat_add]
  rfl

theorem record_logRead_idx (s : State) (t : Ts) : (s.record t).logRead s.idx.toNat = t := by
  rw [record_logRead, if_pos rfl]

theorem record_logRead_of_ne {s : State} {a : Nat} (h : a ≠ s.idx.toNat) (t : Ts) :
    (s.record t).logRead a = s.logRead a := by
  rw [record_logRead, if_neg h]

/-- Settles O12: an armed EDGE is one recording, a disarmed one is dropped. -/
theorem armedEdgeRecordsAtTheIndex : Obligations.ArmedEdgeRecordsAtTheIndex := fun t s =>
  ⟨decode_encode (.edge t), exec_edge_disarmed t s, fun h =>
    ⟨s.record t, exec_edge_armed t s h, record_idx_toNat s t, record_logRead_idx s t,
      fun _ ha => record_logRead_of_ne ha t, rfl, rfl, rfl, rfl, rfl, rfl, rfl, rfl, rfl⟩⟩

/-! ## A burst of recorded edges -/

/-- The state after a burst that is recorded whole. -/
def State.recordAll (s : State) (ts : List Ts) : State := ts.foldl State.record s

/-- The entry of LOG at which event number `n` of a burst from `s` is written (10_state.md R29 b). -/
def State.slot (s : State) (n : Nat) : Nat := (s.idx.toNat + n) % 256

theorem recordAll_concat (s : State) (ts : List Ts) (t : Ts) :
    s.recordAll (ts ++ [t]) = (s.recordAll ts).record t := List.foldl_concat ..

theorem execAll_edges_armed (ts : List Ts) {s : State} (h : s.en = true) :
    execAll (edges ts) s = .next (s.recordAll ts) := by
  induction ts generalizing s with
  | nil => rfl
  | cons t rest ih => exact (execAll_cons_of_next (exec_edge_armed t s h) (edges rest)).trans (ih h)

/-- What no single recording changes, no burst changes. -/
theorem recordAll_keeps {α : Type} (f : State → α) (hf : ∀ u t, f (u.record t) = f u) (s : State) (ts : List Ts) :
    f (s.recordAll ts) = f s :=
  List.foldlRecOn (motive := fun u => f u = f s) ts State.record rfl fun u h t _ => (hf u t).trans h

theorem recordAll_idx (s : State) (ts : List Ts) : (s.recordAll ts).idx.toNat = s.slot ts.length := by
  induction ts using List.reverseRecOn with
  | nil => exact (Nat.mod_eq_of_lt s.idx.isLt).symm
  | append_singleton ts t ih =>
    rw [recordAll_concat, record_idx_toNat, ih, State.slot, State.slot, List.length_append, List.length_singleton]
    omega

/-- A burst leaves the entries alone at which none of its events is written. -/
theorem recordAll_logRead_of_ne {s : State} {ts : List Ts} {a : Nat} (h : ∀ n < ts.length, a ≠ s.slot n) :
    (s.recordAll ts).logRead a = s.logRead a := by
  induction ts using List.reverseRecOn with
  | nil => rfl
  | append_singleton ts t ih =>
    simp only [List.length_append, List.length_singleton] at h
    have hlast : a ≠ (s.recordAll ts).idx.toNat := recordAll_idx s ts ▸ h ts.length (by omega)
    rw [recordAll_concat, record_logRead_of_ne hlast, ih fun n hn => h n (by omega)]

/-- Each of the last 256 events of a burst stands at its entry: no later one of them is written there. -/
theorem recordAll_logRead_slot {s : State} {ts : List Ts} {n : Nat} (hn : n < ts.length) (hlast : ts.length ≤ n + 256) :
    (s.recordAll ts).logRead (s.slot n) = ts[n] := by
  induction ts using List.reverseRecOn with
  | nil => simp at hn
  | append_singleton ts t ih =>
    simp only [List.length_append, List.length_singleton] at hn hlast
    rw [recordAll_concat]
    rcases Nat.lt_succ_iff_lt_or_eq.mp hn with hold | hnew
    · have hne : s.slot n ≠ (s.recordAll ts).idx.toNat := by
        rw [recordAll_idx, State.slot, State.slot]
        omega
      rw [record_logRead_of_ne hne, ih hold (by omega), List.getElem_append_left hold]
    · subst hnew
      rw [← recordAll_idx, record_logRead_idx, List.getElem_concat_length rfl]

/-- Settles O18: after the CLEAR the burst starts at entry 0, and event number n is written at entry n modulo 256. -/
theorem burstFillsTheRing : Obligations.BurstFillsTheRing := by
  intro ts s hen
  have hslot (n : Nat) : (s.setIdx 0).slot n = n % 256 := congrArg (· % 256) (Nat.zero_add n)
  refine ⟨(s.setIdx 0).recordAll ts, (execAll_cons_of_next rfl (edges ts)).trans (execAll_edges_armed ts hen),
    (recordAll_idx _ ts).trans (hslot _), (recordAll_keeps State.en record_en _ ts).trans hen,
    recordAll_keeps State.res record_res _ ts, fun n hn hlast => ?_, fun a ha => ?_⟩
  · rw [← hslot n]
    exact recordAll_logRead_slot hn hlast
  · refine recordAll_logRead_of_ne fun n hn => ?_
    have hle : n % 256 ≤ n := Nat.mod_le n 256
    rw [hslot n]
    omega

end Sys2Proof.Machine
end

section
/-! PROOFS. DECODE as a whole (41_session_decode.md): its seven stages leave the verdict of the reference decoder in RES,
and in the registers internal to DECODE a function of the capture, so that a second DECODE changes nothing. -/

namespace Sys2Proof.Machine

/-! ## The timing checks against those of the reference decoder -/

theorem converted_durRead (p : Params) (s : State) (i : Fin 85) :
    (s.converted p).durRead i = Frame.durations p s.logRead i.val := converted_dur p s i

theorem converted_symbolAt (p : Params) (s : State) (k : Fin 40) :
    (s.converted p).symbolAt k =
      classify (Frame.durations p s.logRead (4 + 2 * k.val)) (Frame.durations p s.logRead (5 + 2 * k.val)) := by
  rw [State.symbolAt, State.pairLow, State.pairHigh, converted_durRead, converted_durRead]

/-- Four conditions hold exactly when four of them are counted. -/
theorem toNat_sum_eq_four (a b c d : Bool) : a.toNat + b.toNat + c.toNat + d.toNat = 4 ↔ (a && b && c && d) = true := by
  cases a <;> cases b <;> cases c <;> cases d <;> decide

theorem initialOk_iff (p : Params) (s : State) :
    Frame.initialOk (Frame.durations p s.logRead) = true ↔ (s.converted p).initialPassed = 4 := by
  simp only [State.initialPassed, converted_durRead]
  exact (toNat_sum_eq_four _ _ _ _).symm

theorem dataOk_iff (p : Params) (s : State) :
    Frame.dataOk (Frame.durations p s.logRead) = true ↔ (s.converted p).pairsCounted = 40 := by
  simp only [Frame.dataOk, List.all_eq_true, List.mem_range, pairsCounted_eq_forty, converted_symbolAt, classify_counted]
  exact ⟨fun h k => h k.val k.isLt, fun h k hk => h ⟨k, hk⟩⟩

theorem terminalOk_eq (p : Params) (s : State) :
    Frame.terminalOk (Frame.durations p s.logRead) = inWindow ((s.converted p).durRead 84) Config.wS4L := by
  rw [converted_durRead, Frame.terminalOk]
  rfl

/-! ## The five fields against the bytes of the reference decoder -/

theorem inWindow_iff {w : Nat} (d : BitVec w) (win : Window) :
    inWindow d win = true ↔ win.lo ≤ d.toNat ∧ d.toNat ≤ win.hi := by
  simp only [inWindow, Bool.and_eq_true, decide_eq_true_eq]

/-- The high window of a ZERO and that of a ONE have no duration in common (30_encoding.md R63). -/
theorem classify_eq_one {w : Nat} (lo hi : BitVec w) :
    classify lo hi = .one ↔ (inWindow lo Config.wS3L && inWindow hi Config.wS3H1) = true := by
  have hdisjoint : inWindow hi Config.wS3H1 = true → inWindow hi Config.wS3H0 = false := by
    rw [← Bool.not_eq_true, inWindow_iff, inWindow_iff]
    simp only [Config.wS3H0, Config.wS3H1]
    omega
  unfold classify
  cases h1 : inWindow hi Config.wS3H1 with
  | true =>
    rw [hdisjoint h1]
    cases inWindow lo Config.wS3L <;> decide
  | false => cases inWindow lo Config.wS3L <;> cases inWindow hi Config.wS3H0 <;> decide

theorem bit_eq_symbol (p : Params) (s : State) (k : Fin 40) :
    Frame.bit (Frame.durations p s.logRead) k.val = (decide ((s.converted p).symbolAt k = .one)).toNat := by
  rw [converted_symbolAt, Frame.bit, Bool.toNat, Bool.cond_decide]
  exact if_congr (classify_eq_one _ _).symm rfl rfl

/-- The bits a field is decoded to, from 0: a pair in neither window leaves its bit 0 (44_bit_decoder.md R152, R153). -/
theorem fieldByte_zero_getLsbD (s : State) (f : Fin 5) (j : Fin 8) :
    (s.fieldByte f 0).getLsbD (7 - j.val) = decide (s.symbolAt (pairNumber f j) = .one) := by
  rw [fieldByte_getLsbD]
  cases s.symbolAt (pairNumber f j) <;> simp

/-- A byte as a number, from its bits. -/
theorem byte_toNat (v : Byte) :
    v.toNat = 128 * (v.getLsbD 7).toNat + 64 * (v.getLsbD 6).toNat + 32 * (v.getLsbD 5).toNat +
      16 * (v.getLsbD 4).toNat + 8 * (v.getLsbD 3).toNat + 4 * (v.getLsbD 2).toNat + 2 * (v.getLsbD 1).toNat +
      (v.getLsbD 0).toNat := by
  revert v
  decide

theorem fieldByte_toNat (p : Params) (s : State) (f : Fin 5) :
    ((s.converted p).fieldByte f 0).toNat = Frame.byte (Frame.durations p s.logRead) f.val := by
  have hbit (i j : Nat) (hij : i + j = 7) : (((s.converted p).fieldByte f 0).getLsbD i).toNat =
      Frame.bit (Frame.durations p s.logRead) (8 * f.val + j) := by
    obtain rfl : i = 7 - j := by omega
    have hj : j < 8 := by omega
    rw [fieldByte_zero_getLsbD (s.converted p) f ⟨j, hj⟩]
    exact (bit_eq_symbol p s (pairNumber f ⟨j, hj⟩)).symm
  rw [byte_toNat, hbit 7 0 rfl, hbit 6 1 rfl, hbit 5 2 rfl, hbit 4 3 rfl, hbit 3 4 rfl, hbit 2 5 rfl, hbit 1 6 rfl,
    hbit 0 7 rfl, Frame.byte, Nat.add_zero]

theorem terminated_fieldRead_toNat (p : Params) (s : State) (f : Fin 5) :
    ((s.terminated p).fieldRead f).toNat = Frame.byte (Frame.durations p s.logRead) f.val := by
  rw [State.fieldRead, terminated_field, decoded_field, fieldByte_toNat]

/-! ## The values against the arithmetic of the reference decoder -/

theorem joinBytes_toNat (h l : Byte) : (joinBytes h l).toNat = 256 * h.toNat + l.toNat := by
  have hh := h.isLt
  have hl := l.isLt
  have hhigh : (h.setWidth 16 <<< 8 : BitVec 16).toNat = h.toNat <<< 8 := by
    simp only [BitVec.toNat_shiftLeft, BitVec.toNat_setWidth, Nat.shiftLeft_eq]
    omega
  have hlow : (l.setWidth 16 : BitVec 16).toNat = l.toNat := by
    rw [BitVec.toNat_setWidth]
    omega
  rw [joinBytes, BitVec.toNat_or, hhigh, hlow, ← Nat.shiftLeft_add_eq_or_of_lt hl, Nat.shiftLeft_eq]
  omega

theorem signMagnitude_eq_temperature (raw : BitVec 16) : signMagnitude raw = Frame.temperature raw.toNat := by
  have hlt := raw.isLt
  have hmag : (raw.extractLsb' 0 15).toNat = raw.toNat % 2 ^ 15 := by simp
  have hsign : raw.getLsbD 15 = decide (2 ^ 15 ≤ raw.toNat) := BitVec.msb_eq_decide raw
  rw [signMagnitude, Frame.temperature, hsign, hmag]
  by_cases hneg : raw.toNat < 2 ^ 15
  · rw [if_pos hneg, if_neg (by simpa using hneg), Nat.mod_eq_of_lt hneg]
  · rw [if_neg hneg, if_pos (by simpa using hneg), show raw.toNat % 2 ^ 15 = raw.toNat - 2 ^ 15 by omega]

section
variable {t : State}

theorem parityOk_iff : t.parityOk ↔ t.par.toNat = (t.hh.toNat + t.hl.toNat + t.th.toNat + t.tl.toNat) % 256 := by
  rw [State.parityOk, ← BitVec.toNat_inj]
  simp

theorem rangeOk_iff : t.rangeOk ↔
    Frame.inRange (256 * t.hh.toNat + t.hl.toNat) (Frame.temperature (256 * t.th.toNat + t.tl.toNat)) = true := by
  rw [State.rangeOk, signMagnitude_eq_temperature, joinBytes_toNat, joinBytes_toNat]
  simp only [Frame.inRange, Bool.and_eq_true, decide_eq_true_eq, and_assoc]

/-- What the reference decoder makes of the five fields of a state. -/
def State.assembled (t : State) : Res :=
  Frame.assemble t.hh.toNat t.hl.toNat t.th.toNat t.tl.toNat t.par.toNat

theorem assembled_of_not_parityOk (h : ¬ t.parityOk) : t.assembled = .err .parityError :=
  if_pos (mt parityOk_iff.mpr h)

theorem assembled_of_not_rangeOk (hp : t.parityOk) (hr : ¬ t.rangeOk) : t.assembled = .err .rangeError :=
  (if_neg (not_not_intro (parityOk_iff.mp hp))).trans (if_neg (mt rangeOk_iff.mpr hr))

theorem assembled_of_rangeOk (hp : t.parityOk) (hr : t.rangeOk) : t.assembled =
    .ok (joinBytes t.hh t.hl) (BitVec.ofInt 16 (signMagnitude (joinBytes t.th t.tl))) := by
  have hhum : BitVec.ofNat 16 (256 * t.hh.toNat + t.hl.toNat) = joinBytes t.hh t.hl := by
    rw [← joinBytes_toNat, BitVec.ofNat_toNat, BitVec.setWidth_eq]
  rw [signMagnitude_eq_temperature, joinBytes_toNat, ← hhum]
  exact (if_neg (not_not_intro (parityOk_iff.mp hp))).trans (if_pos (rangeOk_iff.mp hr))

end

/-! ## The verdict, in the counts that DECODE keeps -/

section
variable {p : Params} {s : State}

theorem verdict_of_count (h : s.idx ≠ 86) : Frame.verdict p s.idx.toNat s.logRead = .err .edgeCountMismatch :=
  if_pos fun h86 => h (BitVec.eq_of_toNat_eq h86)

theorem verdict_of_counted (h : s.idx = 86) : Frame.verdict p s.idx.toNat s.logRead =
    Frame.verdictOfDurations p.ckptMode (Frame.durations p s.logRead) :=
  if_neg (not_not_intro (congrArg BitVec.toNat h))

theorem verdict_of_initial (h : s.idx = 86) (hi : (s.converted p).initialPassed < 4) :
    Frame.verdict p s.idx.toNat s.logRead = .err .initialSignalInvalid := by
  have hfail : Frame.initialOk (Frame.durations p s.logRead) = false := by
    rw [← Bool.not_eq_true, initialOk_iff]
    omega
  rw [verdict_of_counted h, Frame.verdictOfDurations, if_pos hfail]

/-- Past the first checkpoint the verdict is that of the data section, the terminal duration and the values. -/
theorem verdict_of_begun (h : s.idx = 86) (hi : (s.converted p).initialPassed = 4) :
    Frame.verdict p s.idx.toNat s.logRead =
      if (s.converted p).pairsCounted < 40 then .err .dataOrTerminalInvalid
      else if inWindow ((s.converted p).durRead 84) Config.wS4L = false then .err (finalCode p.ckptMode)
      else (s.terminated p).assembled := by
  have hle := pairsCounted_le (s.converted p)
  have hdata : Frame.dataOk (Frame.durations p s.logRead) = false ↔ (s.converted p).pairsCounted < 40 := by
    rw [← Bool.not_eq_true, dataOk_iff]
    omega
  rw [verdict_of_counted h, Frame.verdictOfDurations, if_neg (by rw [(initialOk_iff p s).mpr hi]; decide), terminalOk_eq]
  simp only [hdata, State.assembled, State.hh, State.hl, State.th, State.tl, State.par, terminated_fieldRead_toNat]
  rfl

theorem verdict_of_data (h : s.idx = 86) (hi : (s.converted p).initialPassed = 4)
    (hd : (s.converted p).pairsCounted < 40) :
    Frame.verdict p s.idx.toNat s.logRead = .err .dataOrTerminalInvalid := by
  rw [verdict_of_begun h hi, if_pos hd]

/-- Under MERGED a failed pair and a failed terminal duration have one code (43_protocol_validator.md R137). -/
theorem verdict_of_terminal (h : s.idx = 86) (hi : (s.converted p).initialPassed = 4)
    (hd : p.ckptMode = .merged ∨ (s.converted p).pairsCounted = 40)
    (ht : (s.converted p).pairsCounted < 40 ∨ inWindow ((s.converted p).durRead 84) Config.wS4L = false) :
    Frame.verdict p s.idx.toNat s.logRead = .err (finalCode p.ckptMode) := by
  rw [verdict_of_begun h hi]
  split
  next hlt =>
    have hmerged : p.ckptMode = .merged := hd.resolve_right (by omega)
    rw [hmerged]
    rfl
  next hge => rw [if_pos (ht.resolve_left hge)]

theorem verdict_of_timed (h : s.idx = 86) (hi : (s.converted p).initialPassed = 4)
    (hd : (s.converted p).pairsCounted = 40) (ht : inWindow ((s.converted p).durRead 84) Config.wS4L = true) :
    Frame.verdict p s.idx.toNat s.logRead = (s.terminated p).assembled := by
  rw [verdict_of_begun h hi, if_neg (by omega), if_neg (by rw [ht]; decide)]

end

/-! ## DECODE as one update -/

/-- The state of the stage at which a DECODE ends, before RES is written. -/
def State.ended (p : Params) (s : State) : State :=
  if s.idx ≠ 86 then s.setCc 0
  else if (s.converted p).initialPassed < 4 then s.initialed p
  else if p.ckptMode = .split ∧ (s.converted p).pairsCounted < 40 then s.decoded p
  else s.terminated p

section
variable {p : Params} {s : State}

theorem ended_of_count (h : s.idx ≠ 86) : s.ended p = s.setCc 0 := if_pos h

theorem ended_of_initial (h : s.idx = 86) (hi : (s.converted p).initialPassed < 4) : s.ended p = s.initialed p := by
  rw [State.ended, if_neg (not_not_intro h), if_pos hi]

theorem ended_of_splitData (h : s.idx = 86) (hi : (s.converted p).initialPassed = 4) (hm : p.ckptMode = .split)
    (hd : (s.converted p).pairsCounted < 40) : s.ended p = s.decoded p := by
  rw [State.ended, if_neg (not_not_intro h), if_neg (by omega), if_pos ⟨hm, hd⟩]

theorem ended_of_data (h : s.idx = 86) (hi : (s.converted p).initialPassed = 4)
    (hd : p.ckptMode = .merged ∨ (s.converted p).pairsCounted = 40) : s.ended p = s.terminated p := by
  have hpast : ¬ (p.ckptMode = .split ∧ (s.converted p).pairsCounted < 40) := by
    rintro ⟨hm, hlt⟩
    rcases hd with hmerged | hall
    · rw [hm] at hmerged
      cases hmerged
    · omega
  rw [State.ended, if_neg (not_not_intro h), if_neg (by omega), if_neg hpast]

end

/-- DECODE leaves the registers as its last stage left them, and the verdict in RES (41_session_decode.md R110 to R115). -/
theorem decodeStages_final (p : Params) (s : State) :
    (decodeStages p s).final = (s.ended p).setRes (Frame.verdict p s.idx.toNat s.logRead) := by
  rcases decodeStages_cases p s with ⟨h, hx⟩ | ⟨h, hi, hx⟩ | ⟨h, hi, hm, hd, hx⟩ | ⟨h, hi, hd, ht, hx⟩ |
    ⟨h, hi, hd, ht, ⟨hp, hx⟩ | ⟨hp, hr, hx⟩ | ⟨hp, hr, hx⟩⟩ <;> rw [hx]
  · rw [ended_of_count h, verdict_of_count h]; rfl
  · rw [ended_of_initial h hi, verdict_of_initial h hi]; rfl
  · rw [ended_of_splitData h hi hm hd, verdict_of_data h hi hd]; rfl
  · rw [ended_of_data h hi hd, verdict_of_terminal h hi hd ht]; rfl
  · rw [ended_of_data h hi (.inr hd), verdict_of_timed h hi hd ht, assembled_of_not_parityOk hp]; rfl
  · rw [ended_of_data h hi (.inr hd), verdict_of_timed h hi hd ht, assembled_of_not_rangeOk hp hr]; rfl
  · rw [ended_of_data h hi (.inr hd), verdict_of_timed h hi hd ht, assembled_of_rangeOk hp hr]; rfl

theorem decodeStages_res (p : Params) (s : State) :
    (decodeStages p s).final.res = Frame.verdict p s.idx.toNat s.logRead := by
  rw [decodeStages_final, State.setRes_res]

/-- Settles O25: RES is the verdict, whichever way the DECODE ends. -/
theorem decodeComputesTheReferenceVerdict : Obligations.DecodeComputesTheReferenceVerdict := fun p s hen =>
  ⟨_, decodeWith_disarmed p s hen, decodeStages_res p s⟩

/-- Settles O22: the refusal is the first thing DECODE decides. -/
theorem armedDecodeIsRefused : Obligations.ArmedDecodeIsRefused := fun _ s hen =>
  ⟨if_pos hen, exec_decode_armed s hen⟩

/-- Settles O24: no stage writes the capture, and every ending writes RES. -/
theorem decodeLeavesTheCaptureAlone : Obligations.DecodeLeavesTheCaptureAlone := by
  intro p s hen
  have hkeep := decodeStages_capture p s
  exact ⟨_, decodeWith_disarmed p s hen, decodeStages_res_ne_none p s, hkeep.log, hkeep.idx, hkeep.en, hkeep.logRead,
    hkeep.inputs, hkeep.tick, hkeep.resets⟩

/-! ## What the verdict depends on -/

namespace Frame

/-- The 85 durations read the first 86 entries only. -/
theorem durations_congr {w : Nat} (p : Params) {ts us : Nat → BitVec w} (h : ∀ i, i < 86 → ts i = us i) :
    SameNumbers (durations p ts) (durations p us) := by
  intro i hi
  rw [durations, durations, h i (by omega), h (i + 1) (by omega)]

theorem verdict_congr {w : Nat} (p : Params) (count : Nat) {ts us : Nat → BitVec w} (h : ∀ i, i < 86 → ts i = us i) :
    verdict p count ts = verdict p count us := by
  rw [verdict, verdict, (durations_congr p h).verdictOfDurations]

theorem assemble_ne_countMismatch (hh hl th tl par : Nat) : assemble hh hl th tl par ≠ .err .edgeCountMismatch := by
  unfold assemble
  split
  · decide
  · split
    · exact Res.noConfusion
    · decide

theorem verdictOfDurations_ne_countMismatch {w : Nat} (mode : CkptMode) (d : Nat → BitVec w) :
    verdictOfDurations mode d ≠ .err .edgeCountMismatch := by
  unfold verdictOfDurations
  split
  · decide
  · split
    · decide
    · split
      · cases mode <;> decide
      · exact assemble_ne_countMismatch _ _ _ _ _

/-- Code 1 is the count's alone (41_session_decode.md R112). -/
theorem verdict_eq_countMismatch_iff {w : Nat} (p : Params) (count : Nat) (ts : Nat → BitVec w) :
    verdict p count ts = .err .edgeCountMismatch ↔ count ≠ 86 := by
  unfold verdict
  split
  next h => exact iff_of_true rfl h
  next h => exact iff_of_false (verdictOfDurations_ne_countMismatch _ _) h

end Frame

/-- Settles O26: both results are the verdict, which reads the count and 86 entries. -/
theorem decodeDependsOnCountAndFirst86Only : Obligations.DecodeDependsOnCountAndFirst86Only := by
  intro p s t hs ht hidx hlog
  refine ⟨_, _, decodeWith_disarmed p s hs, decodeWith_disarmed p t ht, ?_⟩
  rw [decodeStages_res, decodeStages_res, hidx, Frame.verdict_congr p _ hlog]

/-- Settles O28: code 1 is the verdict on a wrong count, and then stage 0 ends the DECODE on any log. -/
theorem countOtherThan86GivesCodeOne : Obligations.CountOtherThan86GivesCodeOne := by
  refine ⟨rfl, fun s hen => ⟨_, exec_decode_disarmed s hen, ?_, fun hidx m => ?_⟩⟩
  · rw [decodeStages_res, Frame.verdict_eq_countMismatch_iff, ne_eq, ne_eq, ← BitVec.toNat_inj]
    rfl
  · rw [exec_decode_disarmed { s with log := m } hen, decodeStages_count _ s hidx,
      decodeStages_count _ { s with log := m } hidx]
    rfl

/-! ## A second DECODE -/

theorem SameCapture.symm {s t : State} (h : SameCapture s t) : SameCapture t s :=
  ⟨h.log.symm, h.idx.symm, h.en.symm, h.inputs.symm, h.tick.symm, h.resets.symm⟩

theorem initialed_res (p : Params) (s : State) : (s.initialed p).res = s.res := by
  rw [State.initialed, initialCounts_eq, State.setCc_res, State.converted, State.setDur_res, State.setCc_res]

theorem decoded_res (p : Params) (s : State) : (s.decoded p).res = s.res := by
  rw [State.decoded, dataLoop_res, initialed_res]

theorem setRes_countIf (s : State) (r : Res) (b : Bool) : (s.setRes r).countIf b = (s.countIf b).setRes r := by
  rw [countIf_eq, countIf_eq]
  rfl

section
variable {p : Params} {s t : State}

theorem SameCapture.converted_dur (h : SameCapture s t) (p : Params) : (t.converted p).dur = (s.converted p).dur := by
  simp only [State.converted, State.setDur_dur, h.logRead]

/-- The registers of the data section are a function of the capture: DUR, CC, BITPTR and FIELD have all been written. -/
theorem SameCapture.decoded_eq (h : SameCapture s t) (p : Params) : t.decoded p = (s.decoded p).setRes t.res := by
  have hdur := h.converted_dur p
  refine State.same ?capture (decoded_res p t) ?dur ?cc ?bitptr ?field
  case capture => exact (((decoded_capture p s).trans (setRes_capture _ _)).symm.trans h).trans (decoded_capture p t)
  case dur => rw [decoded_dur, State.setRes_dur, decoded_dur, hdur]
  case cc =>
    apply BitVec.eq_of_toNat_eq
    rw [State.setRes_cc, decoded_cc, decoded_cc, initialPassed_of_dur hdur, pairsCounted_of_dur hdur]
  case bitptr => rw [decoded_bitptr, State.setRes_bitptr, decoded_bitptr]
  case field =>
    apply Vector.ext
    intro i hi
    have hfield := (decoded_field p t ⟨i, hi⟩).trans
      ((fieldByte_of_symbols (symbolAt_of_dur hdur) ⟨i, hi⟩ 0).trans (decoded_field p s ⟨i, hi⟩).symm)
    rwa [Vector.get_eq_getElem, Vector.get_eq_getElem] at hfield

theorem SameCapture.terminated_eq (h : SameCapture s t) (p : Params) :
    t.terminated p = (s.terminated p).setRes t.res := by
  rw [State.terminated, State.terminated, h.decoded_eq p, setRes_countIf, durRead_of_dur (State.setRes_dur _ _)]

/-- The initial checks, run again on what they left, leave it: DUR and CC are written the same, BITPTR and FIELD are not
touched. -/
theorem initialed_of_eq {r : Res} (h : t = (s.initialed p).setRes r) : t.initialed p = t := by
  have hcapture : SameCapture s t := h ▸ (initialed_capture p s).trans (setRes_capture _ r)
  have hdur := hcapture.converted_dur p
  refine State.same (initialed_capture p t) (initialed_res p t) ?dur ?cc (initialed_bitptr p t) (initialed_field p t)
  case dur => rw [initialed_dur, hdur, h, State.setRes_dur, initialed_dur]
  case cc =>
    apply BitVec.eq_of_toNat_eq
    rw [initialed_cc, initialPassed_of_dur hdur, h, State.setRes_cc, initialed_cc]

/-- Two states with one capture end their DECODE at the same stage. -/
theorem SameCapture.ended_eq (h : SameCapture s t) (p : Params) : t.ended p =
    if s.idx ≠ 86 then t.setCc 0
    else if (s.converted p).initialPassed < 4 then t.initialed p
    else if p.ckptMode = .split ∧ (s.converted p).pairsCounted < 40 then t.decoded p
    else t.terminated p := by
  have hdur := h.converted_dur p
  rw [State.ended, h.idx, initialPassed_of_dur hdur, pairsCounted_of_dur hdur]

/-- The registers a DECODE leaves are those that a second one leaves. -/
theorem ended_of_eq {r : Res} (h : t = (s.ended p).setRes r) (hcapture : SameCapture s t) : t.ended p = t := by
  rw [hcapture.ended_eq p]
  unfold State.ended at h
  split at h
  next hidx => rw [if_pos hidx, h]; rfl
  next hidx =>
    rw [if_neg hidx]
    split at h
    next hi => rw [if_pos hi, initialed_of_eq h]
    next hi =>
      rw [if_neg hi]
      split at h
      next hd => rw [if_pos hd, hcapture.decoded_eq p, h]; rfl
      next hd => rw [if_neg hd, hcapture.terminated_eq p, h]; rfl

end

theorem decodeStages_idempotent (p : Params) (s : State) :
    (decodeStages p (decodeStages p s).final).final = (decodeStages p s).final := by
  have hcapture := decodeStages_capture p s
  have hres := decodeStages_res p s
  have hended := ended_of_eq (decodeStages_final p s) hcapture
  generalize (decodeStages p s).final = t at hcapture hres hended
  have hverdict : Frame.verdict p t.idx.toNat t.logRead = t.res := by
    rw [hres, hcapture.idx, Frame.verdict_congr p _ fun i _ => hcapture.logRead i]
  rw [decodeStages_final, hended, hverdict]
  rfl

/-- Settles O27: a DECODE that completes leaves the core disarmed, in a state that DECODE maps to itself. -/
theorem repeatedDecodeChangesNothing : Obligations.RepeatedDecodeChangesNothing := by
  intro s t h
  have ht : t = (decodeStages Config.decided s).final := eq_of_decodeWith_next h
  cases hen : s.en with
  | true => cases (exec_decode_armed s hen).symm.trans h
  | false =>
    have hdisarmed : t.en = false := by rw [ht, (decodeStages_capture Config.decided s).en, hen]
    rw [exec_decode_disarmed t hdisarmed, ht, decodeStages_idempotent]

end Sys2Proof.Machine
end

section
/-! PROOFS. The Duration Converter (42_duration_converter.md): the two branches of delta as numbers, for both wrap constants
and at every width, and the durations that a counted DECODE leaves. -/

namespace Sys2Proof.Machine

/-! ## The two branches of delta -/

section
variable {w wrapK : Nat} {earlier later : BitVec w}

/-- No wrap constant up to M overflows in the wrapped branch, so both readings of it (R125) are exact numbers. -/
theorem delta_toNat_of_lt (h : later.toNat < earlier.toNat) (hk : wrapK ≤ 2 ^ w) :
    (delta wrapK earlier later).toNat = (wrapK - earlier.toNat) + later.toNat := by
  have hearlier := earlier.isLt
  have hlater := later.isLt
  have hfits : (wrapK - earlier.toNat) + later.toNat < 2 ^ w := by omega
  rw [delta, if_pos h, BitVec.toNat_ofNat, Nat.mod_eq_of_lt hfits]

theorem delta_toNat_of_not_lt (h : ¬ later.toNat < earlier.toNat) :
    (delta wrapK earlier later).toNat = later.toNat - earlier.toNat := by
  have hfits : later.toNat - earlier.toNat < 2 ^ w := (Nat.sub_le _ _).trans_lt later.isLt
  rw [delta, if_neg h, BitVec.toNat_ofNat, Nat.mod_eq_of_lt hfits]

end

/-- Settles O30: M itself does not overflow the wrapped branch, and the other branch never does. -/
theorem deltaIsTheWrapSafeDifference : Obligations.DeltaIsTheWrapSafeDifference := fun _ _ _ =>
  ⟨fun h => delta_toNat_of_lt h le_rfl, delta_toNat_of_not_lt⟩

/-- Settles O31: the two branches of delta are one subtraction modulo M. -/
theorem deltaIsModularSubtraction : Obligations.DeltaIsModularSubtraction := fun _ => delta_eq_sub

/-- Settles O32: only the wrapped branch reads the constant, and there M - 1 is not below the earlier timestamp. -/
theorem otherWrapConstantLosesOneMicrosecond : Obligations.OtherWrapConstantLosesOneMicrosecond := by
  intro w earlier later
  refine ⟨fun h => ?_, fun h => ?_⟩
  · have hearlier := earlier.isLt
    rw [delta_toNat_of_lt h (Nat.sub_le _ _), delta_toNat_of_lt h le_rfl]
    omega
  · apply BitVec.eq_of_toNat_eq
    rw [delta_toNat_of_not_lt h, delta_toNat_of_not_lt h]

/-- Settles O33: the starting instant cancels in the subtraction modulo M. -/
theorem deltaIsTheElapsedTimeModuloM : Obligations.DeltaIsTheElapsedTimeModuloM := fun w a gap => by
  rw [delta_ofNat_add, BitVec.toNat_ofNat]

/-! ## The durations of a DECODE -/

/-- With WRAP_K = M stage 1 leaves the intervals between the edges (R122). -/
theorem converted_durRead_toNat {p : Params} (hp : p.wrapK = 2 ^ 32) (s : State) (i : Fin 85) :
    ((s.converted p).durRead i).toNat = s.interval i.val := by
  rw [converted_dur, hp, delta_eq_sub, State.interval]

/-- Past stage 0, the stage at which a DECODE ends has the durations of stage 1: no later stage writes DUR. -/
theorem ended_dur_of_counted (p : Params) {s : State} (h : s.idx = 86) : (s.ended p).dur = (s.converted p).dur := by
  rw [State.ended, if_neg (not_not_intro h)]
  split
  · exact initialed_dur p s
  · split
    · exact decoded_dur p s
    · exact terminated_dur p s

theorem decodeStages_dur_of_counted (p : Params) {s : State} (h : s.idx = 86) :
    (decodeStages p s).final.dur = (s.converted p).dur := by
  rw [decodeStages_final, State.setRes_dur, ended_dur_of_counted p h]

/-- Settles O34: however a counted DECODE ends, DUR is what stage 1 wrote. -/
theorem convertFillsTheDurations : Obligations.ConvertFillsTheDurations := by
  rintro s ⟨hen, hidx⟩
  refine ⟨_, exec_decode_disarmed s hen, fun i => ?_⟩
  rw [decodeStages_dur_of_counted Config.decided hidx]
  exact converted_durRead_toNat rfl s i

end Sys2Proof.Machine
end

section
/-! PROOFS. The Protocol Validator (43_protocol_validator.md): the counts that DECODE keeps are those of the checks of a
frame in the spec's own numbers, which give the result at each checkpoint, in both modes, and the counter at the end. -/

namespace Sys2Proof.Machine

/-- Settles O36: the two comparisons of the window test, and the windows as they are defined. -/
theorem windowsAreInclusive : Obligations.WindowsAreInclusive :=
  ⟨fun _ => inWindow_iff, rfl, rfl, rfl, rfl, rfl, rfl, rfl, rfl⟩

/-! ## The counts of DECODE, in the spec's numbers -/

section
variable {p : Params} (hp : p.wrapK = 2 ^ 32) (s : State)
include hp

theorem converted_inWindow (i : Fin 85) (win : Window) :
    inWindow ((s.converted p).durRead i) win = decide (win.lo ≤ s.interval i.val ∧ s.interval i.val ≤ win.hi) := by
  rw [Bool.eq_iff_iff, inWindow_iff, converted_durRead_toNat hp, decide_eq_true_iff]

theorem converted_initialPassed : (s.converted p).initialPassed = s.initialChecksPassed := by
  simp only [State.initialPassed, converted_inWindow hp, Bool.toNat, Bool.cond_decide]
  rfl

theorem converted_initialPassed_eq_four : (s.converted p).initialPassed = 4 ↔ s.InitialInWindows := by
  rw [converted_initialPassed hp, initialChecksPassed_eq_four]

theorem converted_initialPassed_lt_four : (s.converted p).initialPassed < 4 ↔ ¬ s.InitialInWindows := by
  rw [← converted_initialPassed_eq_four hp]
  exact (initialPassed_le _).lt_iff_ne

/-- The two kinds of a compliant pair have the low window in common (R134). -/
theorem converted_symbolAt_counted (k : Fin 40) :
    ((s.converted p).symbolAt k).counted = decide (s.PairCompliant k.val) := by
  rw [State.symbolAt, classify_counted, compliant, State.pairLow, State.pairHigh, converted_inWindow hp,
    converted_inWindow hp, converted_inWindow hp, ← Bool.decide_or, ← Bool.decide_and]
  exact decide_eq_decide.mpr and_or_left

theorem converted_pairsCounted :
    (s.converted p).pairsCounted = (List.range 40).countP fun k => decide (s.PairCompliant k) := by
  rw [← List.map_coe_finRange_eq_range, List.countP_map]
  exact List.countP_congr fun k _ => by rw [converted_symbolAt_counted hp]; rfl

theorem converted_pairsCounted_eq_forty : (s.converted p).pairsCounted = 40 ↔ ∀ k < 40, s.PairCompliant k := by
  simp only [pairsCounted_eq_forty, converted_symbolAt_counted hp, decide_eq_true_iff]
  exact ⟨fun h k hk => h ⟨k, hk⟩, fun h k => h k.val k.isLt⟩

theorem converted_pairsCounted_lt_forty : (s.converted p).pairsCounted < 40 ↔ ¬ ∀ k < 40, s.PairCompliant k := by
  rw [← converted_pairsCounted_eq_forty hp]
  exact (pairsCounted_le _).lt_iff_ne

theorem converted_terminal :
    inWindow ((s.converted p).durRead 84) Config.wS4L = decide s.TerminalInWindow :=
  converted_inWindow hp s 84 Config.wS4L

end

/-! ## The first checkpoint -/

theorem initialCounts_cc {s : State} (h : s.cc = 0) : (initialCounts s).cc.toNat = s.initialPassed := by
  have hle := initialPassed_le s
  rw [initialCounts_eq, State.setCc_cc, h, zero_add, BitVec.toNat_ofNat]
  omega

/-- The counter is the number of checks that passed, at most 4, and the threshold is 4 (R133). -/
theorem initialCheck_of_cc_zero {s : State} (h : s.cc = 0) :
    (∃ t, initialCheck s = .pass t ∧ t.cc = 4) ∨
      ∃ t, initialCheck s = .raised t ∧ t.cc.toNat < 4 ∧ t.res = .err .initialSignalInvalid := by
  rcases checkpoint_cases Config.thInit .initialSignalInvalid (initialCounts s) with ⟨hlt, hx⟩ | ⟨hge, hx⟩
  · exact .inr ⟨_, hx, hlt, raise_res _ _⟩
  · have hle : (initialCounts s).cc.toNat ≤ 4 := initialCounts_cc h ▸ initialPassed_le s
    exact .inl ⟨_, hx, BitVec.eq_of_toNat_eq (Nat.le_antisymm hle hge)⟩

/-! ## The result at each checkpoint -/

/-- No timing code comes out of the Value Assembler. -/
theorem assembled_ne_err {t : State} {c : FailCode} (hparity : c ≠ .parityError) (hrange : c ≠ .rangeError) :
    t.assembled ≠ .err c := by
  unfold State.assembled Frame.assemble
  split
  · exact fun h => hparity (Res.err.inj h).symm
  · split
    · exact Res.noConfusion
    · exact fun h => hrange (Res.err.inj h).symm

section
variable {p : Params} {s : State} (hp : p.wrapK = 2 ^ 32) (h : s.idx = 86)
include hp h

/-- The results of a counted DECODE, by the checks of the frame: the first that fails decides (60_exceptions.md R184). -/
theorem verdict_counted_cases :
    (¬ s.InitialInWindows ∧ Frame.verdict p s.idx.toNat s.logRead = .err .initialSignalInvalid) ∨
    (s.InitialInWindows ∧ (¬ ∀ k < 40, s.PairCompliant k) ∧
      Frame.verdict p s.idx.toNat s.logRead = .err .dataOrTerminalInvalid) ∨
    (s.InitialInWindows ∧ (∀ k < 40, s.PairCompliant k) ∧ ¬ s.TerminalInWindow ∧
      Frame.verdict p s.idx.toNat s.logRead = .err (finalCode p.ckptMode)) ∨
    (s.InitialInWindows ∧ (∀ k < 40, s.PairCompliant k) ∧ s.TerminalInWindow ∧
      Frame.verdict p s.idx.toNat s.logRead = (s.terminated p).assembled) := by
  by_cases hi : s.InitialInWindows
  swap
  · exact .inl ⟨hi, verdict_of_initial h ((converted_initialPassed_lt_four hp s).mpr hi)⟩
  have hinit := (converted_initialPassed_eq_four hp s).mpr hi
  by_cases hd : ∀ k < 40, s.PairCompliant k
  swap
  · exact .inr (.inl ⟨hi, hd, verdict_of_data h hinit ((converted_pairsCounted_lt_forty hp s).mpr hd)⟩)
  have hdata := (converted_pairsCounted_eq_forty hp s).mpr hd
  have hterm := converted_terminal hp s
  by_cases ht : s.TerminalInWindow
  · exact .inr (.inr (.inr ⟨hi, hd, ht, verdict_of_timed h hinit hdata (hterm.trans (decide_eq_true ht))⟩))
  · exact .inr (.inr (.inl ⟨hi, hd, ht,
      verdict_of_terminal h hinit (.inr hdata) (.inr (hterm.trans (decide_eq_false ht)))⟩))

/-- Code 2: the initial signal (R133). -/
theorem verdict_eq_initialSignalInvalid_iff :
    Frame.verdict p s.idx.toNat s.logRead = .err .initialSignalInvalid ↔ ¬ s.InitialInWindows := by
  rcases verdict_counted_cases hp h with ⟨hi, hv⟩ | ⟨hi, -, hv⟩ | ⟨hi, -, -, hv⟩ | ⟨hi, -, -, hv⟩ <;> rw [hv]
  · exact iff_of_true rfl hi
  · exact iff_of_false (by decide) (not_not_intro hi)
  · exact iff_of_false (by cases p.ckptMode <;> decide) (not_not_intro hi)
  · exact iff_of_false (assembled_ne_err (by decide) (by decide)) (not_not_intro hi)

/-- Code 3, past the first checkpoint: a failed pair in either mode, the terminal duration under MERGED only (R137,
R138). -/
theorem verdict_eq_dataOrTerminalInvalid_iff (hi : s.InitialInWindows) :
    Frame.verdict p s.idx.toNat s.logRead = .err .dataOrTerminalInvalid ↔
      (¬ ∀ k < 40, s.PairCompliant k) ∨ (p.ckptMode = .merged ∧ ¬ s.TerminalInWindow) := by
  rcases verdict_counted_cases hp h with ⟨hni, -⟩ | ⟨-, hd, hv⟩ | ⟨-, hd, ht, hv⟩ | ⟨-, hd, ht, hv⟩
  · exact absurd hi hni
  · exact iff_of_true hv (.inl hd)
  · rw [hv, or_iff_right (not_not_intro hd), and_iff_left ht]
    cases p.ckptMode <;> decide
  · rw [hv]
    exact iff_of_false (assembled_ne_err (by decide) (by decide)) (by tauto)

/-- Code 4, past the first checkpoint: the terminal duration alone, under SPLIT only (R138). -/
theorem verdict_eq_terminalInvalid_iff (hi : s.InitialInWindows) :
    Frame.verdict p s.idx.toNat s.logRead = .err .terminalInvalid ↔
      p.ckptMode = .split ∧ (∀ k < 40, s.PairCompliant k) ∧ ¬ s.TerminalInWindow := by
  rcases verdict_counted_cases hp h with ⟨hni, -⟩ | ⟨-, hd, hv⟩ | ⟨-, hd, ht, hv⟩ | ⟨-, hd, ht, hv⟩
  · exact absurd hi hni
  · rw [hv]
    exact iff_of_false (by decide) fun hall => hd hall.2.1
  · rw [hv, and_iff_left (And.intro hd ht)]
    cases p.ckptMode <;> decide
  · rw [hv]
    exact iff_of_false (assembled_ne_err (by decide) (by decide)) fun hall => hall.2.2 ht

end


/-- Settles O37: the first checkpoint as a stage, and code 2 as the result of the whole DECODE. -/
theorem firstCheckpointIsTheInitialSignal : Obligations.FirstCheckpointIsTheInitialSignal := by
  refine ⟨fun _ => initialCheck_of_cc_zero, fun s ⟨hen, hidx⟩ => ⟨_, exec_decode_disarmed s hen, ?_⟩⟩
  rw [decodeStages_res, verdict_eq_initialSignalInvalid_iff rfl hidx]

/-- Settles O39: a failed pair ends the DECODE before the terminal duration is checked. -/
theorem splitCheckpointsSeparateDataAndTerminal : Obligations.SplitCheckpointsSeparateDataAndTerminal := by
  rintro s ⟨hen, hidx⟩ hi
  refine ⟨_, decodeWith_disarmed _ s hen, ?_, ?_⟩ <;> rw [decodeStages_res]
  · rw [verdict_eq_dataOrTerminalInvalid_iff rfl hidx hi, or_iff_left fun hmerged => CkptMode.noConfusion hmerged.1]
  · rw [verdict_eq_terminalInvalid_iff rfl hidx hi, and_iff_right rfl]

/-! ## The two modes -/

/-- The mode enters the verdict in the code of a failed terminal check, and nowhere else (R138). -/
theorem verdictOfDurations_modes {w : Nat} (d : Nat → BitVec w) :
    Frame.verdictOfDurations .merged d = Frame.verdictOfDurations .split d ∨
      (Frame.verdictOfDurations .merged d = .err .dataOrTerminalInvalid ∧
        Frame.verdictOfDurations .split d = .err .terminalInvalid) := by
  unfold Frame.verdictOfDurations
  split
  · exact .inl rfl
  · split
    · exact .inl rfl
    · split
      · exact .inr ⟨rfl, rfl⟩
      · exact .inl rfl

/-- Settles O40: both verdicts are on the same count and the same durations. -/
theorem modesDifferOnlyInTheTerminalCode : Obligations.ModesDifferOnlyInTheTerminalCode := by
  intro k s hen
  refine ⟨_, _, decodeWith_disarmed _ s hen, decodeWith_disarmed _ s hen, fun hne => ?_⟩
  rw [decodeStages_res, decodeStages_res] at hne ⊢
  unfold Frame.verdict at hne ⊢
  split at hne
  next => exact absurd rfl hne
  next hcount =>
    rw [if_neg hcount, if_neg hcount]
    exact (verdictOfDurations_modes _).resolve_left hne

/-! ## The counter at the end -/

theorem decodeStages_cc (p : Params) (s : State) : (decodeStages p s).final.cc = (s.ended p).cc := by
  rw [decodeStages_final, State.setRes_cc]

section
variable {p : Params} {s : State} (hp : p.wrapK = 2 ^ 32) (h : s.idx = 86)
include hp h

/-- A failed first checkpoint ends the DECODE with the initial checks counted (R132, R133). -/
theorem ended_cc_of_not_initialInWindows (hi : ¬ s.InitialInWindows) :
    (s.ended p).cc.toNat = s.initialChecksPassed := by
  rw [ended_of_initial h ((converted_initialPassed_lt_four hp s).mpr hi), initialed_cc, converted_initialPassed hp]

/-- Under MERGED every pair and the terminal duration are counted, whatever fails (R135, R136). -/
theorem ended_cc_of_merged (hm : p.ckptMode = .merged) (hi : s.InitialInWindows) :
    (s.ended p).cc.toNat = 4 + (s.converted p).pairsCounted + if s.TerminalInWindow then 1 else 0 := by
  have hinit := (converted_initialPassed_eq_four hp s).mpr hi
  rw [ended_of_data h hinit (.inl hm), terminated_cc, hinit, converted_terminal hp, Bool.toNat, Bool.cond_decide]

/-- The largest count is 4 + 40 + 1 = 45, and one failed check is enough to miss it (R137). -/
theorem ended_cc_lt_iff (hm : p.ckptMode = .merged) (hi : s.InitialInWindows) :
    (s.ended p).cc.toNat < 45 ↔ ¬ ((∀ k < 40, s.PairCompliant k) ∧ s.TerminalInWindow) := by
  have hle := pairsCounted_le (s.converted p)
  rw [ended_cc_of_merged hp h hm hi, ← converted_pairsCounted_eq_forty hp]
  split <;> omega

end

/-- Settles O41: the counter of the stage at which the DECODE ends. -/
theorem counterCountsThePassedChecks : Obligations.CounterCountsThePassedChecks := by
  rintro s ⟨hen, hidx⟩
  refine ⟨_, exec_decode_disarmed s hen, fun hi => ?_, fun hi => ?_⟩ <;> rw [decodeStages_cc]
  · have hne := mt (initialChecksPassed_eq_four s).mp hi
    rw [ended_cc_of_not_initialInWindows rfl hidx hi]
    exact ⟨rfl, (initialChecksPassed_le s).lt_of_ne hne⟩
  · rw [ended_cc_of_merged rfl hidx rfl hi, converted_pairsCounted rfl]

/-- Settles O38: code 3 and a counter below 45 both say that one of the 41 checks failed. -/
theorem finalCheckpointMergesDataAndTerminal : Obligations.FinalCheckpointMergesDataAndTerminal := by
  rintro s ⟨hen, hidx⟩ hi
  have hcode : (decodeStages Config.decided s).final.res = .err .dataOrTerminalInvalid ↔
      ¬ ((∀ k < 40, s.PairCompliant k) ∧ s.TerminalInWindow) := by
    have hmerged : Config.decided.ckptMode = .merged := rfl
    rw [decodeStages_res, verdict_eq_dataOrTerminalInvalid_iff rfl hidx hi, and_iff_right hmerged]
    exact not_and_or.symm
  have hcount := ended_cc_lt_iff (p := Config.decided) rfl hidx rfl hi
  refine ⟨_, exec_decode_disarmed s hen, ?bound, ?notFour, hcode, ?below⟩
  case bound =>
    have hle := pairsCounted_le (s.converted Config.decided)
    rw [decodeStages_cc, ended_cc_of_merged rfl hidx rfl hi]
    split <;> omega
  case notFour =>
    rw [decodeStages_res, ne_eq, verdict_eq_terminalInvalid_iff rfl hidx hi]
    exact fun hsplit => CkptMode.noConfusion hsplit.1
  case below => rw [hcode, decodeStages_cc, hcount]

/-! ## A pair in neither window -/

/-- Past the first checkpoint, however a DECODE ends, the fields are those of the forty pairs (44_bit_decoder.md R152). -/
theorem ended_field_of_begun {p : Params} {s : State} (h : s.idx = 86) (hi : (s.converted p).initialPassed = 4)
    (f : Fin 5) : (s.ended p).field.get f = (s.converted p).fieldByte f 0 := by
  rw [State.ended, if_neg (not_not_intro h), if_neg (by omega)]
  split
  · exact decoded_field p s f
  · rw [terminated_field, decoded_field]

/-- A pair that is not compliant is no ONE, so its bit is 0 (44_bit_decoder.md R153). -/
theorem fieldByte_of_not_counted {s : State} {f : Fin 5} {j : Fin 8}
    (h : (s.symbolAt (pairNumber f j)).counted = false) : (s.fieldByte f 0).getLsbD (7 - j.val) = false := by
  rw [fieldByte_zero_getLsbD, decide_eq_false_iff_not]
  intro hone
  rw [hone] at h
  cases h

/-- Settles O44: in either mode one failed pair is code 3, and its bit is still the 0 that the field started with. -/
theorem softFailedPairForcesCodeThree : Obligations.SoftFailedPairForcesCodeThree := by
  rintro mode s k hk ⟨hen, hidx⟩ hi hpair
  refine ⟨_, decodeWith_disarmed _ s hen, ?code, ?bit⟩
  case code =>
    rw [decodeStages_res, verdict_eq_dataOrTerminalInvalid_iff rfl hidx hi]
    exact .inl fun hall => hpair (hall k hk)
  case bit =>
    have hinit := (converted_initialPassed_eq_four (p := ⟨2 ^ 32, mode⟩) rfl s).mpr hi
    have hnumber : pairNumber ⟨k / 8, by omega⟩ ⟨k % 8, by omega⟩ = ⟨k, hk⟩ := Fin.ext (Nat.div_add_mod k 8)
    rw [decodeStages_final, State.setRes_field, ended_field_of_begun hidx hinit]
    refine fieldByte_of_not_counted (j := ⟨k % 8, by omega⟩) ?_
    rw [hnumber, converted_symbolAt_counted rfl, decide_eq_false hpair]

end Sys2Proof.Machine
end

section
/-! PROOFS. The Bit Decoder (44_bit_decoder.md): the classification of a pair in the spec's numbers, and the bit of a field
that each pair decides. -/

namespace Sys2Proof.Machine

/-! ## The symbol code -/

section
variable {w : Nat} (lo hi : BitVec w)

theorem classify_eq_zero :
    classify lo hi = .zero ↔ (inWindow lo Config.wS3L && inWindow hi Config.wS3H0) = true := by
  unfold classify
  split
  next hzero => exact iff_of_true rfl hzero
  next hzero => exact iff_of_false (by split <;> exact Symbol.noConfusion) hzero

/-- The pairs in neither window are those that are not compliant (43_protocol_validator.md R134). -/
theorem classify_eq_none : classify lo hi = .none ↔ ¬ compliant lo hi = true := by
  rw [← classify_counted]
  cases classify lo hi <;> decide

theorem compliant_iff :
    compliant lo hi = true ↔ (48 ≤ lo.toNat ∧ lo.toNat ≤ 69) ∧
      ((22 ≤ hi.toNat ∧ hi.toNat ≤ 30) ∨ (68 ≤ hi.toNat ∧ hi.toNat ≤ 75)) := by
  simp only [compliant, Bool.and_eq_true, Bool.or_eq_true, inWindow_iff, Config.wS3L, Config.wS3H0, Config.wS3H1]

end

/-- Settles O42: each symbol is a combination of window tests, and a window test is two comparisons. -/
theorem classificationIsTheSymbolCode : Obligations.ClassificationIsTheSymbolCode := by
  refine fun w lo hi => ⟨?zero, ?one, ?none⟩
  case zero =>
    rw [classify_eq_zero, Bool.and_eq_true, inWindow_iff, inWindow_iff]
    rfl
  case one =>
    rw [classify_eq_one, Bool.and_eq_true, inWindow_iff, inWindow_iff]
    rfl
  case none => rw [classify_eq_none, compliant_iff, not_and_or]

/-! ## The bits of the fields -/

/-- Every pair is pair `k mod 8` of field `k div 8` (R154). -/
theorem pairNumber_div_mod (k : Fin 40) :
    pairNumber ⟨k.val / 8, by omega⟩ ⟨k.val % 8, by omega⟩ = k := Fin.ext (Nat.div_add_mod k.val 8)

/-- Past the first checkpoint, however a DECODE ends, the bit pointer has gone once round for each field (R152). -/
theorem ended_bitptr_of_begun {p : Params} {s : State} (h : s.idx = 86) (hi : (s.converted p).initialPassed = 4) :
    (s.ended p).bitptr = 7 := by
  rw [State.ended, if_neg (not_not_intro h), if_neg (by omega)]
  split
  · exact decoded_bitptr p s
  · exact terminated_bitptr p s

theorem converted_symbolAt_eq_one {p : Params} (hp : p.wrapK = 2 ^ 32) (s : State) (k : Fin 40) :
    (s.converted p).symbolAt k = .one ↔ s.PairIsOne k.val := by
  rw [State.symbolAt, classify_eq_one, State.pairLow, State.pairHigh, converted_inWindow hp, converted_inWindow hp,
    ← Bool.decide_and, decide_eq_true_iff]
  rfl

/-- The bit that pair `k` decides, in the byte of its field: 1 for a ONE, and otherwise the 0 that the field starts with
(R152 to R154). -/
theorem converted_fieldByte_getLsbD {p : Params} (hp : p.wrapK = 2 ^ 32) (s : State) (k : Fin 40) :
    ((s.converted p).fieldByte ⟨k.val / 8, by omega⟩ 0).getLsbD (7 - k.val % 8) = decide (s.PairIsOne k.val) := by
  have hbit := fieldByte_zero_getLsbD (s.converted p) ⟨k.val / 8, by omega⟩ ⟨k.val % 8, by omega⟩
  rw [pairNumber_div_mod] at hbit
  exact hbit.trans (decide_eq_decide.mpr (converted_symbolAt_eq_one hp s k))

/-- Settles O43: the fields at the end of DECODE are the bytes of their pairs, and each bit of a byte is its pair's. -/
theorem fieldsHoldTheirPairs : Obligations.FieldsHoldTheirPairs := by
  rintro s ⟨hen, hidx⟩ hi
  have hinit := (converted_initialPassed_eq_four (p := Config.decided) rfl s).mpr hi
  refine ⟨_, exec_decode_disarmed s hen, ?pointer, fun k hk => ?bit⟩ <;> rw [decodeStages_final]
  case pointer => rw [State.setRes_bitptr, ended_bitptr_of_begun hidx hinit]
  case bit =>
    rw [State.setRes_field, ended_field_of_begun hidx hinit]
    exact converted_fieldByte_getLsbD rfl s ⟨k, hk⟩

end Sys2Proof.Machine
end

section
/-! PROOFS. The Value Assembler (45_value_assembler.md): the arithmetic of a raw temperature, and the result of a DECODE
whose timing checks all pass, which is what the assembler makes of the five fields. -/

namespace Sys2Proof.Machine

/-! ## The raw temperature -/

theorem temperature_of_lt {n : Nat} (h : n < 2 ^ 15) : Frame.temperature n = n := if_pos h

/-- With the sign bit set the rest is a magnitude; negative zero is 0 (R162, R166 a). -/
theorem temperature_add_sign (n : Nat) : Frame.temperature (2 ^ 15 + n) = -(n : Int) := by
  rw [Frame.temperature, if_neg (by omega), Nat.add_sub_cancel_left]

/-- Setting the top bit of a 16-bit value that has it clear adds 2^15. -/
theorem or_sign_toNat {raw : BitVec 16} (h : raw.toNat < 2 ^ 15) : (raw ||| 0x8000#16).toNat = 2 ^ 15 + raw.toNat := by
  rw [BitVec.toNat_or, Nat.or_comm]
  exact (Nat.two_pow_add_eq_or_of_lt h 1).symm

/-- A magnitude has 15 bits (R165 h). -/
theorem signMagnitude_bounds (raw : BitVec 16) : -32767 ≤ signMagnitude raw ∧ signMagnitude raw ≤ 32767 := by
  have hlt := raw.isLt
  rw [signMagnitude_eq_temperature, Frame.temperature]
  split <;> omega

/-- Settles O46: the raw temperature as a number, below the sign bit and with it set. -/
theorem temperatureIsSignMagnitude : Obligations.TemperatureIsSignMagnitude := by
  refine ⟨joinBytes_toNat, fun raw hraw => ?_, signMagnitude_bounds⟩
  rw [signMagnitude_eq_temperature, signMagnitude_eq_temperature, or_sign_toNat hraw, temperature_of_lt hraw,
    temperature_add_sign]
  exact ⟨rfl, rfl⟩

/-! ## The result of the assembler, by its two checks -/

section
variable {t : State}

theorem not_rangeOk_iff : ¬ t.rangeOk ↔
    256 * t.hh.toNat + t.hl.toNat > 999 ∨ Frame.temperature (256 * t.th.toNat + t.tl.toNat) < -400 ∨
      Frame.temperature (256 * t.th.toNat + t.tl.toNat) > 1250 := by
  rw [State.rangeOk, signMagnitude_eq_temperature, joinBytes_toNat, joinBytes_toNat, not_and_or, not_and_or, not_le,
    not_le, not_le]

/-- Code 5 is the parity check's alone, whatever the range check would say (R160, R167). -/
theorem assembled_eq_parityError_iff : t.assembled = .err .parityError ↔ ¬ t.parityOk := by
  by_cases hp : t.parityOk
  · refine iff_of_false ?_ (not_not_intro hp)
    by_cases hr : t.rangeOk
    · rw [assembled_of_rangeOk hp hr]
      exact Res.noConfusion
    · rw [assembled_of_not_rangeOk hp hr]
      decide
  · exact iff_of_true (assembled_of_not_parityOk hp) hp

theorem assembled_eq_rangeError_iff (hp : t.parityOk) : t.assembled = .err .rangeError ↔ ¬ t.rangeOk := by
  refine ⟨fun herr hr => ?_, assembled_of_not_rangeOk hp⟩
  rw [assembled_of_rangeOk hp hr] at herr
  cases herr

/-- In its range the humidity is the same number unsigned and as the two's-complement result (R161, R164). -/
theorem humidity_toInt (hr : t.rangeOk) :
    (joinBytes t.hh t.hl).toInt = ((256 * t.hh.toNat + t.hl.toNat : Nat) : Int) := by
  obtain ⟨hhum, -, -⟩ := hr
  rw [BitVec.toInt_eq_toNat_of_lt (by omega), joinBytes_toNat]

/-- Every sign-magnitude value has a two's-complement form in 16 bits (R162, R164). -/
theorem temperature_toInt (high low : Byte) :
    (BitVec.ofInt 16 (signMagnitude (joinBytes high low))).toInt =
      Frame.temperature (256 * high.toNat + low.toNat) := by
  obtain ⟨hlow, hhigh⟩ := signMagnitude_bounds (joinBytes high low)
  rw [BitVec.toInt_ofInt_eq_self (by decide) (by omega) (by omega), signMagnitude_eq_temperature, joinBytes_toNat]

end

/-! ## A DECODE whose timing checks all pass -/

/-- Past the 45 timing checks DECODE completes, its fields decide RES, and writing RES leaves the fields (R160 to R164). -/
theorem exec_decode_timed {s : State} (h : s.Timed) : ∃ u : State, exec .decode s = .next (u.setRes u.assembled) := by
  obtain ⟨⟨hen, hidx⟩, hinit, hdata, hterm⟩ := h
  have hi := (converted_initialPassed_eq_four (p := Config.decided) rfl s).mpr hinit
  have hd := (converted_pairsCounted_eq_forty (p := Config.decided) rfl s).mpr hdata
  have ht := (converted_terminal (p := Config.decided) rfl s).trans (decide_eq_true hterm)
  refine ⟨s.terminated Config.decided, ?_⟩
  rw [exec_decode_disarmed s hen, decodeStages_final, ended_of_data hidx hi (.inr hd), verdict_of_timed hidx hi hd ht]

/-- Settles O45: RES is what the assembler makes of the fields, and its first check is the parity. -/
theorem parityErrorIsTheChecksum : Obligations.ParityErrorIsTheChecksum := by
  intro s hs
  obtain ⟨u, hu⟩ := exec_decode_timed hs
  refine ⟨_, hu, ?_⟩
  rw [State.setRes_res, assembled_eq_parityError_iff]
  exact not_congr parityOk_iff

/-- Settles O47: with the parity right the range check alone decides between code 6 and the two values. -/
theorem rangeErrorOrTheTwoValues : Obligations.RangeErrorOrTheTwoValues := by
  intro s hs
  obtain ⟨u, hu⟩ := exec_decode_timed hs
  refine ⟨_, hu, fun hparity => ?_⟩
  have hp : u.parityOk := parityOk_iff.mpr hparity
  rw [State.setRes_res, ne_eq, assembled_eq_rangeError_iff hp, not_not]
  refine ⟨not_rangeOk_iff, fun hr => ?_⟩
  exact ⟨_, _, assembled_of_rangeOk hp hr, humidity_toInt hr, temperature_toInt u.th u.tl⟩

end Sys2Proof.Machine
end

section
/-! PROOFS. The exceptions family (60_exceptions.md): what coinciding strobes do (R185), that a failure is a write of RES
and the end of its DECODE (R186), and the one operation that does not complete (R187). -/

namespace Sys2Proof.Machine

/-! ## An edge and a command in one sample -/

theorem take_coinciding {p : PortSample} (he : p.edgeStb = true) (hc : p.cmdStb = true) (edgeFirst : Bool) :
    p.take edgeFirst = if edgeFirst then some (p.eventWord, p.edgeTaken) else some (.cmd p.cmd, p.cmdTaken) := by
  simp only [PortSample.take, he, hc]

/-- A sample that still carries a strobe is the very next input. -/
theorem putBack_strobed {p : PortSample} (h : p.edgeStb = true ∨ p.cmdStb = true) (later : List PortSample) :
    p.putBack later = p :: later :=
  if_pos ((Bool.or_eq_true _ _).mpr h)

section
variable {s : State} {p : PortSample} {later : List PortSample}

/-- With the edge first, its event word is fetched and the command stays in front. -/
theorem fetch_coinciding_edgeFirst (hin : s.inputs = p :: later) (hrst : p.rst = false) (he : p.edgeStb = true)
    (hc : p.cmdStb = true) (horder : Config.edgeFirst s.tick = true) :
    fetch s = .word p.eventWord (p.edgeTaken :: later) := by
  have htake := (take_coinciding he hc (Config.edgeFirst s.tick)).trans (if_pos horder)
  rw [fetch_of_take_some hin hrst htake, putBack_strobed (p := p.edgeTaken) (.inr hc)]

/-- With the command first, its code is fetched and the edge stays in front. -/
theorem fetch_coinciding_cmdFirst (hin : s.inputs = p :: later) (hrst : p.rst = false) (he : p.edgeStb = true)
    (hc : p.cmdStb = true) (horder : Config.edgeFirst s.tick ≠ true) :
    fetch s = .word (.cmd p.cmd) (p.cmdTaken :: later) := by
  have htake := (take_coinciding he hc (Config.edgeFirst s.tick)).trans (if_neg horder)
  rw [fetch_of_take_some hin hrst htake, putBack_strobed (p := p.cmdTaken) (.inl he)]

end

/-- Settles O6, by the order the step takes: what is left of the sample carries the other strobe alone. -/
theorem coincidingEdgeAndCommandRunInEitherOrder : Obligations.CoincidingEdgeAndCommandRunInEitherOrder := by
  intro s p later i hin hrst he hc hdecode
  have hedge := eventWord_decodes p he
  by_cases horder : Config.edgeFirst s.tick = true
  · refine .inl ⟨_, step_of_word (fetch_coinciding_edgeFirst hin hrst he hc horder) hedge, fun t ht => ?_⟩
    exact step_of_word (fetch_cmd_alone ht hrst rfl hc) hdecode
  · refine .inr ⟨_, step_of_word (fetch_coinciding_cmdFirst hin hrst he hc horder) hdecode, fun t ht => ?_⟩
    exact step_of_word (fetch_edge_alone ht hrst he rfl) hedge

/-! ## The operations that complete -/

/-- No outcome of an operation is a stop, but for the refusal of DECODE while EN = 1. -/
theorem exec_completes {i : Instr} {s : State} (h : ¬ (i = .decode ∧ s.en = true)) : ∃ t, exec i s = .next t := by
  rcases exec_cases i s with ⟨_, -, -, hx⟩ | hx | ⟨-, hx⟩ | ⟨-, hx⟩ | ⟨-, hx⟩ | ⟨-, -, hx⟩ | ⟨hi, harmed, -⟩
  case inr.inr.inr.inr.inr.inr => exact absurd ⟨hi, harmed⟩ h
  all_goals exact ⟨_, hx⟩

/-- Settles O21: the refusal of an armed DECODE, and the completion of everything else. -/
theorem onlyAnArmedDecodeStops : Obligations.OnlyAnArmedDecodeStops := by
  intro i s
  refine ⟨?refused, exec_completes⟩
  case refused =>
    rintro ⟨rfl, harmed⟩
    exact exec_decode_armed s harmed

/-! ## A failure -/

/-- Settles O29: a raise is one write of RES, and sequencing keeps what has raised. -/
theorem raiseWritesTheCodeAndEndsTheDecode : Obligations.RaiseWritesTheCodeAndEndsTheDecode :=
  fun s c later => ⟨rfl, andThen_raised (s.raise c) later⟩

end Sys2Proof.Machine
end

section
/-! PROOFS. The reset and hazards family (70_reset_and_hazards.md): reset and the quiet core, sequences of operations that
keep RES or join two bursts, what an Ok says of its frame, and the DECODE of a capture window. -/

namespace Sys2Proof.Machine

/-! ## Reset and the quiet core -/

section
variable {s : State}

theorem fetch_of_no_input (h : s.inputs = []) : fetch s = .quiet [] := by
  simp only [fetch, h]

theorem fetch_reset {p : PortSample} {later : List PortSample} (hin : s.inputs = p :: later) (hrst : p.rst = true) :
    fetch s = .reset later := by
  simp only [fetch, hin, hrst, if_true]

theorem step_of_reset {left : List PortSample} (h : fetch s = .reset left) : step s = .next (s.applyReset left) := by
  simp only [step, h]

end

/-- Settles O8: the empty list of inputs stays empty. -/
theorem quietCoreDoesNothing : Obligations.QuietCoreDoesNothing := by
  intro s h
  rw [step_of_quiet (fetch_of_no_input h), State.advance, ← h]

/-- Settles O10: a sample with rst is fetched as a reset, whose log is empty. -/
theorem resetAtAnyTimeGivesTheResetState : Obligations.ResetAtAnyTimeGivesTheResetState := fun s _ later hin hrst =>
  ⟨s.applyReset later, step_of_reset (fetch_reset hin hrst), rfl, rfl, rfl, rfl, logRead_of_empty rfl⟩

/-- Settles O11: the reset state is disarmed, and its count is not 86. -/
theorem resetThenDecodeGivesCodeOne : Obligations.ResetThenDecodeGivesCodeOne := by
  refine ⟨⟨_, exec_decode_disarmed State.reset rfl, ?_⟩, fun u => exec_edge_disarmed u State.reset rfl⟩
  rw [decodeStages_res, verdict_of_count (by decide)]

/-! ## Sequences of operations -/

/-- Two sequences run one after the other are their concatenation. -/
theorem execAll_append_of_next {xs : List Instr} {s t : State} (h : execAll xs s = .next t) (ys : List Instr) :
    execAll (xs ++ ys) s = execAll ys t := by
  induction xs generalizing s with
  | nil => cases h; rfl
  | cons i rest ih =>
    cases hx : exec i s with
    | next u =>
      rw [execAll_cons_of_next hx] at h
      rw [List.cons_append, execAll_cons_of_next hx, ih h]
    | fault r => nomatch r
    | refused r => simp [execAll, hx] at h

/-- Every operation but DECODE completes and leaves RES alone (10_state.md R14). -/
theorem exec_res_of_ne_decode {i : Instr} {s : State} (h : i ≠ .decode) : ∃ t, exec i s = .next t ∧ t.res = s.res := by
  obtain ⟨t, hx⟩ := exec_completes (s := s) fun hi => h hi.1
  obtain ⟨-, -, -, honlyDecode, -⟩ := onlyTheNamedWritersWrite i s t hx
  exact ⟨t, hx, by_contra fun hne => h (honlyDecode (.inl hne))⟩

/-- Settles O23, by induction over the sequence. -/
theorem resultStaysUntilTheNextDecode : Obligations.ResultStaysUntilTheNextDecode := by
  intro ops
  induction ops with
  | nil => exact fun s _ => ⟨s, rfl, rfl⟩
  | cons i rest ih =>
    intro s h
    obtain ⟨hne, hrest⟩ := List.ne_and_not_mem_of_not_mem_cons h
    obtain ⟨t, hexec, hfirst⟩ := exec_res_of_ne_decode (s := s) hne.symm
    obtain ⟨u, hrun, hlater⟩ := ih t hrest
    exact ⟨u, (execAll_cons_of_next hexec rest).trans hrun, hlater.trans hfirst⟩

/-! ## Two bursts -/

theorem execAll_edges_disarmed (ts : List Ts) {s : State} (h : s.en = false) : execAll (edges ts) s = .next s := by
  induction ts with
  | nil => rfl
  | cons t rest ih => exact (execAll_cons_of_next (exec_edge_disarmed t s h) (edges rest)).trans ih

theorem recordAll_append (s : State) (xs ys : List Ts) : s.recordAll (xs ++ ys) = (s.recordAll xs).recordAll ys :=
  List.foldl_append

/-- DISARM, dropped edges and ARM give an armed state back (40_edge_recorder.md R94, R97). -/
theorem execAll_pause {s : State} (h : s.en = true) (dropped : List Ts) :
    execAll (.disarm :: edges dropped ++ [.arm]) s = .next s := by
  have hdropped : execAll (edges dropped) (s.setEn false) = .next (s.setEn false) := execAll_edges_disarmed dropped rfl
  calc execAll (.disarm :: edges dropped ++ [.arm]) s
      = execAll (edges dropped ++ [.arm]) (s.setEn false) := execAll_cons_of_next rfl _
    _ = execAll [.arm] (s.setEn false) := execAll_append_of_next hdropped [.arm]
    _ = .next (s.setEn true) := rfl
    _ = .next s := congrArg _ (setEn_of_en h)

/-- Settles O19: the pause between the two bursts leaves the state of the first, and the second goes on from there. -/
theorem armWithoutClearJoinsBursts : Obligations.ArmWithoutClearJoinsBursts := by
  intro xs dropped ys s hen
  have harmed : (s.recordAll xs).en = true := (recordAll_keeps State.en record_en s xs).trans hen
  refine ⟨s.recordAll (xs ++ ys), execAll_edges_armed (xs ++ ys) hen, ?_⟩
  calc execAll (edges xs ++ .disarm :: edges dropped ++ .arm :: edges ys) s
      = execAll (edges xs ++ ((.disarm :: edges dropped ++ [.arm]) ++ edges ys)) s := by
        simp only [List.append_assoc, List.cons_append, List.nil_append]
    _ = execAll ((.disarm :: edges dropped ++ [.arm]) ++ edges ys) (s.recordAll xs) :=
        execAll_append_of_next (execAll_edges_armed xs hen) _
    _ = execAll (edges ys) (s.recordAll xs) := execAll_append_of_next (execAll_pause harmed dropped) (edges ys)
    _ = .next (s.recordAll (xs ++ ys)) := by rw [execAll_edges_armed ys harmed, recordAll_append]

/-! ## What Ok means -/

/-- A DECODE completes in a disarmed core only (41_session_decode.md R113). -/
theorem en_of_exec_decode_next {s t : State} (h : exec .decode s = .next t) : s.en = false := by
  rw [← Bool.not_eq_true]
  intro harmed
  cases (exec_decode_armed s harmed).symm.trans h

/-- An Ok is the last of the four results of a counted frame, the one with every timing check passed. -/
theorem timed_of_verdict_eq_ok {p : Params} (hp : p.wrapK = 2 ^ 32) {s : State} (hen : s.en = false) {hum temp : BitVec 16}
    (hok : Frame.verdict p s.idx.toNat s.logRead = .ok hum temp) : s.Timed := by
  by_cases hidx : s.idx = 86
  swap
  · cases (verdict_of_count hidx).symm.trans hok
  rcases verdict_counted_cases hp hidx with ⟨-, hv⟩ | ⟨-, -, hv⟩ | ⟨-, -, -, hv⟩ | ⟨hi, hd, ht, -⟩
  case inr.inr.inr => exact ⟨⟨hen, hidx⟩, hi, hd, ht⟩
  all_goals cases hv.symm.trans hok

/-- An Ok passed the parity check (45_value_assembler.md R160). -/
theorem parityOk_of_assembled_eq_ok {t : State} {hum temp : BitVec 16} (h : t.assembled = .ok hum temp) : t.parityOk := by
  by_contra hp
  cases (assembled_of_not_parityOk hp).symm.trans h

/-- A legal Ok is in range as the ports carry it: a humidity up to 999 is not negative in 16 bits (R163, R164). -/
theorem inRange_of_legal_ok {mode : CkptMode} {hum temp : BitVec 16} (h : Res.legal mode (.ok hum temp)) :
    0 ≤ hum.toInt ∧ hum.toInt ≤ 999 ∧ -400 ≤ temp.toInt ∧ temp.toInt ≤ 1250 := by
  obtain ⟨hmax, hnonneg, hlo, hhi⟩ := h
  have hsame : hum.toInt = hum.toNat := BitVec.toInt_eq_toNat_of_lt (by omega)
  exact ⟨hnonneg, by omega, hlo, hhi⟩

/-- Settles O48: the verdict is Ok for a timed frame only, where the assembler decides; and a DECODE leaves a legal RES. -/
theorem okMeansEveryCheckPassed : Obligations.OkMeansEveryCheckPassed := by
  intro s t hum temp hx hok
  have ht : t = (decodeStages Config.decided s).final := eq_of_decodeWith_next hx
  have htimed : s.Timed := by
    rw [ht, decodeStages_res] at hok
    exact timed_of_verdict_eq_ok rfl (en_of_exec_decode_next hx) hok
  have hrange := decodeStages_legal Config.decided s
  rw [← ht, hok] at hrange
  obtain ⟨u, hu⟩ := exec_decode_timed htimed
  cases hu.symm.trans hx
  exact ⟨htimed, parityOk_iff.mp (parityOk_of_assembled_eq_ok hok), inRange_of_legal_ok hrange⟩

/-! ## The free contents of the log

The number of resets is the argument of the values that unwritten entries of LOG have (log entry 6), and DECODE uses it for
nothing else: with another number every stage does the same. -/

/-- The same core with the free contents of its log replaced by those of reset number `r`. -/
def State.setResets (s : State) (r : Nat) : State := { s with resets := r }

/-- An entry that has been written reads the same whatever the unwritten ones hold. -/
theorem setResets_logRead {s : State} {i : Nat} (h : (Memory.read? s.log i).isSome = true) (r : Nat) :
    (s.setResets r).logRead i = s.logRead i := by
  obtain ⟨v, hv⟩ := Option.isSome_iff_exists.mp h
  rw [logRead_of_read? hv]
  exact logRead_of_read? hv

theorem SameCapture.setResets {s t : State} (h : SameCapture s t) (r : Nat) :
    SameCapture (s.setResets r) (t.setResets r) :=
  ⟨h.log, h.idx, h.en, h.inputs, h.tick, rfl⟩

theorem initialCounts_setResets (s : State) (r : Nat) :
    initialCounts (s.setResets r) = (initialCounts s).setResets r := by
  rw [initialCounts_eq, initialCounts_eq]
  rfl

theorem countIf_setResets (s : State) (b : Bool) (r : Nat) : (s.setResets r).countIf b = (s.countIf b).setResets r := by
  rw [countIf_eq, countIf_eq]
  rfl

theorem pairStep_setResets (f : Fin 5) (j : Fin 8) (s : State) (r : Nat) :
    pairStep f j (s.setResets r) = (pairStep f j s).setResets r := by
  have hcapture := (pairStep_capture f j s).setResets r
  refine State.same (hcapture.symm.trans (pairStep_capture f j _)) ?res ?dur ?cc ?bitptr ?field
  case res => exact (pairStep_res f j _).trans (pairStep_res f j s).symm
  case dur => exact (pairStep_dur f j _).trans (pairStep_dur f j s).symm
  case cc => exact (pairStep_cc f j _).trans (pairStep_cc f j s).symm
  case bitptr => exact (pairStep_bitptr f j _).trans (pairStep_bitptr f j s).symm
  case field => exact (pairStep_field f j _).trans (pairStep_field f j s).symm

theorem fieldLoop_setResets (f : Fin 5) (s : State) (r : Nat) :
    fieldLoop f (s.setResets r) = (fieldLoop f s).setResets r := by
  unfold fieldLoop
  exact List.foldl_hom (State.setResets · r) (init := s.setBitptr 7) fun t j => pairStep_setResets f j t r

theorem dataLoop_setResets (s : State) (r : Nat) : dataLoop (s.setResets r) = (dataLoop s).setResets r := by
  unfold dataLoop
  exact List.foldl_hom (State.setResets · r) (init := s.setField _) fun t f => fieldLoop_setResets f t r

section
variable {s : State} {r : Nat} (h : ∀ i, i < 86 → (s.setResets r).logRead i = s.logRead i) (p : Params)
include h

theorem converted_setResets : (s.setResets r).converted p = (s.converted p).setResets r := by
  refine congrArg ((s.setResets r).setCc 0).setDur ?_
  congr 1
  funext i
  rw [h i.val (by omega), h (i.val + 1) (by omega)]

theorem initialed_setResets : (s.setResets r).initialed p = (s.initialed p).setResets r := by
  rw [State.initialed, converted_setResets h, initialCounts_setResets, State.initialed]

theorem decoded_setResets : (s.setResets r).decoded p = (s.decoded p).setResets r := by
  rw [State.decoded, initialed_setResets h, dataLoop_setResets, State.decoded]

theorem terminated_setResets : (s.setResets r).terminated p = (s.terminated p).setResets r := by
  rw [State.terminated, decoded_setResets h, countIf_setResets, State.terminated]
  rfl

/-- A counted DECODE ends at the same stage, with the same registers. -/
theorem ended_setResets (hidx : s.idx = 86) : (s.setResets r).ended p = (s.ended p).setResets r := by
  have hdur : ((s.setResets r).converted p).dur = (s.converted p).dur := by rw [converted_setResets h]; rfl
  have hidxSet : (s.setResets r).idx = 86 := hidx
  rw [State.ended, State.ended, initialPassed_of_dur hdur, pairsCounted_of_dur hdur, initialed_setResets h,
    decoded_setResets h, terminated_setResets h, if_neg (not_not_intro hidxSet), if_neg (not_not_intro hidx),
    apply_ite (State.setResets · r), apply_ite (State.setResets · r)]

end

/-- DECODE reads no entry of LOG where the count is wrong, and otherwise the first 86 only. -/
theorem decodeStages_setResets (p : Params) {s : State} {r : Nat}
    (h : s.idx = 86 → ∀ i, i < 86 → (s.setResets r).logRead i = s.logRead i) :
    (decodeStages p (s.setResets r)).final = (decodeStages p s).final.setResets r := by
  by_cases hidx : s.idx = 86
  · rw [decodeStages_final, decodeStages_final, ended_setResets (h hidx) p hidx, Frame.verdict_congr p _ (h hidx)]
    rfl
  · rw [decodeStages_count p s hidx, decodeStages_count p (s.setResets r) hidx]
    rfl

/-- Settles O53: where the count is 86 the invariant has the 86 entries that DECODE reads below IDX, so all are written. -/
theorem noDecodeReadsAnUnwrittenEntry : Obligations.NoDecodeReadsAnUnwrittenEntry := by
  intro s hinv hen
  refine ⟨_, exec_decode_disarmed s hen, fun r => ?_⟩
  have hread : s.idx = 86 → ∀ i, i < 86 → (s.setResets r).logRead i = s.logRead i := fun hidx i hi =>
    setResets_logRead (hinv.written i (by rw [hidx]; exact hi)) r
  exact (exec_decode_disarmed (s.setResets r) hen).trans (congrArg _ (decodeStages_setResets Config.decided hread))

/-! ## A capture window -/

/-- A capture window ends disarmed, with the number of its edges modulo 256 in IDX and its latest edges in LOG
(40_edge_recorder.md R96). -/
theorem execAll_window (ts : List Ts) (s : State) :
    ∃ t, execAll (.clear :: .arm :: edges ts ++ [.disarm]) s = .next t ∧ t.en = false ∧ t.idx.toNat = ts.length % 256 ∧
      ∀ (n : Nat) (h : n < ts.length), ts.length ≤ n + 256 → t.logRead (n % 256) = ts[n] := by
  obtain ⟨t, hrun, hidx, -, -, hread, -⟩ := burstFillsTheRing ts (s.setEn true) rfl
  exact ⟨t.setEn false, execAll_append_of_next (xs := .clear :: .arm :: edges ts) hrun [.disarm], rfl, hidx, hread⟩

/-- In a window whose count is 86 the entry `i` holds edge `i` of the last 86: their numbers start at a multiple of 256
(70_reset_and_hazards.md R215). -/
theorem logRead_of_count_86 {ts : List Ts} {t : State} (hcount : ts.length % 256 = 86)
    (hread : ∀ (n : Nat) (h : n < ts.length), ts.length ≤ n + 256 → t.logRead (n % 256) = ts[n]) {i : Nat} (hi : i < 86) :
    t.logRead i = ts.getD (ts.length - 86 + i) 0 := by
  have hlt : ts.length - 86 + i < ts.length := by omega
  have hentry : (ts.length - 86 + i) % 256 = i := by omega
  have hlast := hread (ts.length - 86 + i) hlt (by omega)
  rw [hentry] at hlast
  rw [hlast, List.getD_eq_getElem ts 0 hlt]

/-- Settles O54: the verdict of the DECODE on what the window left in IDX and LOG. -/
theorem captureWindowDecodesItsLast86Edges : Obligations.CaptureWindowDecodesItsLast86Edges := by
  intro ts s
  obtain ⟨t, hwindow, hen, hidx, hread⟩ := execAll_window ts s
  have hkeep := decodeStages_capture Config.decided t
  have hres := decodeStages_res Config.decided t
  rw [hidx] at hres
  refine ⟨(decodeStages Config.decided t).final, ?run, ?idx, hkeep.en.trans hen, fun hcount => ?other, fun hcount => ?count⟩
  case run =>
    calc execAll (.clear :: .arm :: edges ts ++ [.disarm, .decode]) s
        = execAll ((.clear :: .arm :: edges ts ++ [.disarm]) ++ [.decode]) s := by rw [List.append_assoc]; rfl
      _ = execAll [.decode] t := execAll_append_of_next hwindow [.decode]
      _ = .next (decodeStages Config.decided t).final := execAll_cons_of_next (exec_decode_disarmed t hen) []
  case idx => rw [hkeep.idx, hidx]
  case other => rw [hres, Frame.verdict_eq_countMismatch_iff]; exact hcount
  case count => rw [hres, hcount, Frame.verdict_congr Config.decided 86 fun i => logRead_of_count_86 hcount hread]

end Sys2Proof.Machine
end
